-- ==== Sys2Proof/Word.lean ====
section
/-!
DEFINITION. The data BCORE computes with: the bit, the Bitstring, and a Bitstring's numeric value.
-/

namespace Sys2Proof

/-- A single bit: `false` is the bit 0 and `true` is the bit 1 (R11).
No other value exists, so a cell input "other than 0 or 1" (R84, U1) cannot be written. -/
abbrev Bit := Bool

/-- A Bitstring, most significant bit first: list position `i` is string index `i` (R9, R42, R55).
The length of at least 1 is checked in `Instr.wellFormed`, and the empty list is also the "empty" that
an accumulator starts from (R22). -/
abbrev Bitstring := List Bit

/-- `val(s)`, the sum of `bit(s[i]) * 2^(len(s)-1-i)`, an unbounded natural number (R10). -/
def val : Bitstring → Nat
  | [] => 0
  | b :: s => b.toNat * 2 ^ s.length + val s

/-- `zeros(k)`, the Bitstring of `k` characters `'0'` (R12). -/
def zeros (k : Nat) : Bitstring := List.replicate k false

/-- Which of the two operands of a request: the payload of `InvalidInputError` (R180). -/
inductive Operand where
  | a
  | b
  deriving DecidableEq, Repr

end Sys2Proof
end

