-- ==== Sys2Proof/Syntax.lean ====
section
/-!
DEFINITION. The ten instructions of `spec/opcode_table.json`, and the forms in which they arrive at the machine.
-/

namespace Sys2Proof

/-- One constructor per row of the opcode table. The three operations of format REQ are requested by the host (R58).
PAD and the cells are "selected by instantiation, not by decoding an operation code" (R70). -/
inductive Instr where
  /-- ADD, `add(a, b)` (R110). -/
  | add (a b : Bitstring)
  /-- SUB, `sub(a, b)`, `a` the minuend (R125). -/
  | sub (a b : Bitstring)
  /-- MUL, `mul(a, b)`, `a` the multiplicand (R140). -/
  | mul (a b : Bitstring)
  /-- PAD, `pad(a, b)` (R90). -/
  | pad (a b : Bitstring)
  /-- ADD_BIT, `add_bit(a, b, carry_in)` (R100). -/
  | addBit (a b carryIn : Bit)
  /-- SUB_BIT, `sub_bit(a, b, borrow_in)`, `a` the minuend bit (R103). -/
  | subBit (a b borrowIn : Bit)
  /-- AND (R80). -/
  | and (a b : Bit)
  /-- OR (R81). -/
  | or (a b : Bit)
  /-- XOR (R82). -/
  | xor (a b : Bit)
  /-- NOT (R83). -/
  | not (a : Bit)
  deriving DecidableEq, Repr

/-- The units inside BCORE that are evaluated by instantiation and have no operation code (R70). -/
inductive InternalUnit where
  | pad
  | addBit
  | subBit
  | and
  | or
  | xor
  | not
  deriving DecidableEq, Repr

/-- What a bit-level port carries: the two-bit operation select (R58), and a Bitstring of length `k` as
"the natural number `k` followed by `k` single-bit symbols in string-index order" (R56). -/
inductive PortSymbol where
  | op (code : BitVec 2)
  | len (k : Nat)
  | bit (b : Bit)
  deriving DecidableEq, Repr

/-- One thing placed at the machine's inputs.
`text`: a call with raw text, which the boundary guard reads first (R68, R181).
`port`: a request frame REQ = (op, a, b) on the bit-level port, past the guard (R57).
`pins`: an input vector at an instance of an internal unit, not reachable from the host (R70). -/
inductive Input where
  | text (op : BitVec 2) (ta tb : List Char)
  | port (frame : List PortSymbol)
  | pins (u : InternalUnit) (vector : List PortSymbol)
  deriving DecidableEq, Repr

end Sys2Proof
end

