-- ==== Sys2Proof/Decode.lean ====
section
/-!
DEFINITION. From what stands at the machine's inputs to an instruction, or a rejection by name: the boundary guard for text
(R181), the request frame and its operation select (R57, R58), the pin vectors of the internal units (R70). Then the encoder.
-/

namespace Sys2Proof

/-- Why an input is not an instruction. -/
inductive DecodeError where
  /-- GUARD raises `InvalidInputError` naming the operand (R180, R181). -/
  | invalidInput (o : Operand)
  /-- The operation select is `11` (R65). -/
  | reservedOp
  /-- An operand of length 0 on a bit-level port (R67, U4). -/
  | emptyOperand (o : Operand)
  /-- The symbols are no request frame (R57). -/
  | malformedFrame
  /-- The symbols are no input vector of the unit (R70). -/
  | malformedPins (u : InternalUnit)
  deriving DecidableEq, Repr

/-! ## Text and the boundary guard -/

/-- `bit(c)` on the two legal characters, nothing on any other (R11, R56). -/
def charBit (c : Char) : Option Bit :=
  if c = '0' then some false else if c = '1' then some true else none

/-- `chr(v)` (R11). -/
def bitChar (b : Bit) : Char := if b then '1' else '0'

/-- The bits of a text, if every character is `'0'` or `'1'` (R56). -/
def readChars : List Char → Option Bitstring
  | [] => some []
  | c :: t =>
    match charBit c, readChars t with
    | some b, some s => some (b :: s)
    | _, _ => none

/-- One operand's half of GUARD: nothing if the text is empty (R191) or has a character not in `{'0','1'}` (R180). -/
def readOperand (t : List Char) : Option Bitstring :=
  match t with
  | [] => none
  | _ :: _ => readChars t

/-- GUARD: operand `a` is checked first, then `b` (R181, R183). -/
def boundaryGuard (ta tb : List Char) : Except DecodeError (Bitstring × Bitstring) :=
  match readOperand ta with
  | none => .error (.invalidInput .a)
  | some a =>
    match readOperand tb with
    | none => .error (.invalidInput .b)
    | some b => .ok (a, b)

/-- A Bitstring as text (R68). -/
def toText (s : Bitstring) : List Char := s.map bitChar

/-! ## The bit-level port -/

/-- The next `k` single-bit symbols, and what follows them. -/
def takeBits : Nat → List PortSymbol → Option (Bitstring × List PortSymbol)
  | 0, rest => some ([], rest)
  | k + 1, .bit b :: rest =>
    match takeBits k rest with
    | some (s, rest') => some (b :: s, rest')
    | none => none
  | _ + 1, _ => none

/-- A Bitstring on a port: its length, then that many symbols, index 0 first (R56). -/
def takeOperand : List PortSymbol → Option (Bitstring × List PortSymbol)
  | .len k :: rest => takeBits k rest
  | _ => none

/-- Two Bitstrings and nothing after them, each of length at least 1 (R57, R67); `bad` names any other form. -/
def decodeOperands (bad : DecodeError) (f : List PortSymbol) : Except DecodeError (Bitstring × Bitstring) :=
  match takeOperand f with
  | none => .error bad
  | some (a, rest) =>
    match takeOperand rest with
    | some (b, []) =>
      if a.length = 0 then .error (.emptyOperand .a)
      else if b.length = 0 then .error (.emptyOperand .b)
      else .ok (a, b)
    | _ => .error bad

/-- Operation select (R58); `11` selects nothing (R65). -/
def selectOperation (op : BitVec 2) (a b : Bitstring) : Except DecodeError Instr :=
  match op.toNat with
  | 0 => .ok (.add a b)
  | 1 => .ok (.sub a b)
  | 2 => .ok (.mul a b)
  | _ => .error .reservedOp

/-- A request frame: `op`, then `a`, then `b` (R57). -/
def decodeRequest : List PortSymbol → Except DecodeError Instr
  | .op code :: rest =>
    match decodeOperands .malformedFrame rest with
    | .ok (a, b) => selectOperation code a b
    | .error e => .error e
  | _ => .error .malformedFrame

/-- The input vectors of the internal units, leftmost letter first (R70). -/
def decodePins (u : InternalUnit) (v : List PortSymbol) : Except DecodeError Instr :=
  match u, v with
  | .pad, v =>
    match decodeOperands (.malformedPins .pad) v with
    | .ok (a, b) => .ok (.pad a b)
    | .error e => .error e
  | .addBit, [.bit a, .bit b, .bit c] => .ok (.addBit a b c)
  | .subBit, [.bit a, .bit b, .bit c] => .ok (.subBit a b c)
  | .and, [.bit a, .bit b] => .ok (.and a b)
  | .or, [.bit a, .bit b] => .ok (.or a b)
  | .xor, [.bit a, .bit b] => .ok (.xor a b)
  | .not, [.bit a] => .ok (.not a)
  | u, _ => .error (.malformedPins u)

/-- The decoder, total on every input: text goes through GUARD and only then to BCORE (R181). -/
def decode : Input → Except DecodeError Instr
  | .text op ta tb =>
    match boundaryGuard ta tb with
    | .ok (a, b) => selectOperation op a b
    | .error e => .error e
  | .port frame => decodeRequest frame
  | .pins u v => decodePins u v

/-! ## The encoder -/

/-- A Bitstring's symbols on a port (R56). -/
def operandSymbols (s : Bitstring) : List PortSymbol := .len s.length :: s.map .bit

/-- The request frame of an operation code and two operands (R57). -/
def requestFrame (code : BitVec 2) (a b : Bitstring) : List PortSymbol :=
  .op code :: (operandSymbols a ++ operandSymbols b)

/-- The operation codes of R58 and the vectors of R70. -/
def encode : Instr → Input
  | .add a b => .port (requestFrame 0b00#2 a b)
  | .sub a b => .port (requestFrame 0b01#2 a b)
  | .mul a b => .port (requestFrame 0b10#2 a b)
  | .pad a b => .pins .pad (operandSymbols a ++ operandSymbols b)
  | .addBit a b c => .pins .addBit [.bit a, .bit b, .bit c]
  | .subBit a b c => .pins .subBit [.bit a, .bit b, .bit c]
  | .and a b => .pins .and [.bit a, .bit b]
  | .or a b => .pins .or [.bit a, .bit b]
  | .xor a b => .pins .xor [.bit a, .bit b]
  | .not a => .pins .not [.bit a]

/-- The operation code of an instruction the host can request, nothing for an internal unit (R58, R68). -/
def operationCode : Instr → Option (BitVec 2)
  | .add _ _ => some 0b00#2
  | .sub _ _ => some 0b01#2
  | .mul _ _ => some 0b10#2
  | _ => none

/-- The text call of an operation code and two operands (R68). -/
def encodeText (code : BitVec 2) (a b : Bitstring) : Input := .text code (toText a) (toText b)

/-! ## Words of the opcode table -/

/-- The input a table word stands for: a request whose `op` is bits `[1:0]` and whose operands, which the table gives no
bits, are the shortest all-zero Bitstring. A bit set above `op` belongs to no field of a row, and the frame is then given
a trailing symbol so that the decoder rejects it. Log entry 5, DESIGN CHOICE. -/
def tableInput (nbits w : Nat) : Input :=
  let v := w % 2 ^ nbits
  .port (requestFrame (BitVec.ofNat 2 v) [false] [false] ++ if v < 4 then [] else [.len (v / 4)])

/-- The instruction the decoder reads from a table word. The cells and PAD have no code (R70), so none is read from a word. -/
def decodeTableWord (nbits w : Nat) : Option Instr :=
  match decode (tableInput nbits w) with
  | .ok i => some i
  | .error _ => none

end Sys2Proof
end

