-- ==== Sys2Proof/Config.lean ====
section
/-!
DEFINITION. What one instance of BCORE fixes: the open parameter `W_MAX`, and how fine a step of the model is.
There is no free value: 92_eei_decisions.md says that nothing else is open.
-/

namespace Sys2Proof

/-- How much of an operation one step of the model does (D11).
`operation`: a whole operation, from request to response.
`position`: one position of the chain (R169), with the working values held in State between steps. -/
inductive Granularity where
  | operation
  | position
  deriving DecidableEq, Repr

/-- The parameters of an instance.
`wMax` is `W_MAX`, the longest operand accepted, `none` for "unbounded" (R7, D5).
`granularity` is the model's own parameter (log entry 2). -/
structure Config where
  wMax : Option Nat
  granularity : Granularity
  deriving DecidableEq, Repr

/-- `W_MAX = unbounded`, "the default the model should use" (R7), and the operation as one step (R45). -/
def Config.standard : Config := { wMax := none, granularity := .operation }

end Sys2Proof
end

