-- ==== Sys2Proof/Machine/State.lean ====
section
/-!
DEFINITION. The machine's state: the working values of the operation in progress (R22, R23, R24), what waits at its inputs,
what it has delivered, and the instance's parameters. BCORE has no register, program counter or memory (R21, R26, R27, R40).
-/

namespace Sys2Proof.Machine

/-- One element of a trace: the five kinds of R63, fields in the order given there. -/
inductive TraceEntry where
  /-- `FA_STEP(a, b, cin, sum, cout)`. -/
  | faStep (a b cin sum cout : Bit)
  /-- `FINAL_CARRY(carry)`. -/
  | finalCarry (carry : Bit)
  /-- `FS_STEP(a, b, bin, diff, bout)`. -/
  | fsStep (a b bin diff bout : Bit)
  /-- `PARTIAL(pp, product)`. -/
  | partialProduct (pp product : Bitstring)
  /-- `SKIP(zeros)`. -/
  | skip (zeros : Bitstring)
  deriving DecidableEq, Repr

/-- The pair (result, trace) returned by every operation (R15, R59). -/
structure ArithmeticResult where
  result : Bitstring
  trace  : List TraceEntry
  deriving DecidableEq, Repr

/-- Working state of one ADD (R22). `left` positions are still to be processed: the string index `i` of the next one is
`left - 1`, so `i` runs from `n-1` down to 0 and `left = 0` says that position 0 has been processed. -/
structure AddWork where
  a'    : Bitstring
  b'    : Bitstring
  carry : Bit
  acc   : Bitstring
  left  : Nat
  trace : List TraceEntry
  deriving DecidableEq, Repr

/-- Working state of one SUB (R23); `left` as in `AddWork`. -/
structure SubWork where
  a'         : Bitstring
  b'         : Bitstring
  isNegative : Bool
  borrow     : Bit
  acc        : Bitstring
  left       : Nat
  trace      : List TraceEntry
  deriving DecidableEq, Repr

/-- The nested ADD for which a MUL is suspended (R169), with the partial product it was given (R145). -/
structure NestedAdd where
  pp   : Bitstring
  work : AddWork
  deriving DecidableEq, Repr

/-- Working state of one MUL (R24); `left` counts the positions of `b` still to be processed, as in `AddWork`.
`nested` is the ADD in progress at the current position, which has working values of its own (R26, R154). -/
structure MulWork where
  ax      : Bitstring
  b       : Bitstring
  product : Bitstring
  left    : Nat
  trace   : List TraceEntry
  nested  : Option NestedAdd
  deriving DecidableEq, Repr

/-- The working values of the operation in progress. -/
inductive Work where
  | add (w : AddWork)
  | sub (w : SubWork)
  | mul (w : MulWork)
  deriving DecidableEq, Repr

/-- What the machine hands out. `response` and `invalidInput` go to the host (R59, R184); the others are the output pins of
an internal unit evaluated by itself (R70). -/
inductive Delivery where
  /-- RSP = (result, trace) (R59). -/
  | response (r : ArithmeticResult)
  /-- `InvalidInputError(operand)` (R180). -/
  | invalidInput (o : Operand)
  /-- PAD: `a'`, `b'`. -/
  | aligned (a' b' : Bitstring)
  /-- ADD_BIT: `sum_bit`, `carry_out`. -/
  | sumCarry (sum carryOut : Bit)
  /-- SUB_BIT: `diff_bit`, `borrow_out`. -/
  | diffBorrow (diff borrowOut : Bit)
  /-- AND, OR, XOR, NOT: the output bit. -/
  | bit (out : Bit)
  deriving DecidableEq, Repr

/-- BCORE has no faults: "Within the core itself there are no recoverable error states: every internal function is total
over well-formed Bitstrings" (R185), and the one error of the spec is taken as a next state (R184). So this type has no
constructor. -/
inductive Fault where
  deriving DecidableEq, Repr

/-- Why the machine gives an input no meaning. Each is safe: nothing can be proved of what the hardware does there. -/
inductive Refusal where
  /-- Raised by an arm of `exec` for an instruction without a meaning; no arm does. Safe. -/
  | notModelled (mnemonic : String)
  /-- Raised by `step` for a request with `op = 11` (R65, R186, U5). Safe. -/
  | reservedOp
  /-- Raised by the meanings of ADD, SUB, MUL and PAD, and by `step`, for an operand of length 0 that no guard has turned
  away (R67, U4). Safe. -/
  | emptyOperand (o : Operand)
  /-- Raised by the meanings of ADD, SUB and MUL for an operand longer than `W_MAX` (R7, R186, U7). Safe. -/
  | operandTooLong (o : Operand)
  /-- Raised by `step` for symbols on the request port that are no frame of R57. Safe. -/
  | malformedFrame
  /-- Raised by `step` for symbols at a unit's inputs that are no vector of R70. Safe. -/
  | malformedPins (u : InternalUnit)
  deriving DecidableEq, Repr

/-- The state.
`cfg`: the instance's parameters, which no step changes.
`inputs`: what waits at the machine's inputs, oldest first.
`work`: the working values of the operation in progress, `none` between operations, when "nothing exists" (R31).
`outputs`: what has been delivered, oldest first. It belongs to the host (R30), and no step reads it. -/
structure State where
  cfg     : Config
  inputs  : List Input
  work    : Option Work
  outputs : List Delivery
  deriving DecidableEq, Repr

/-- After reset BCORE is "idle and empty: no operation in progress, no working value held, no result or trace retained, no
error latched" (R200, R31). -/
def State.reset : State :=
  { cfg := Config.standard, inputs := [], work := none, outputs := [] }

end Sys2Proof.Machine
end

