-- ==== Sys2Proof/Machine/Ops.lean ====
section
/-!
DEFINITION. The operations on State that the meanings share: taking the next input, delivering, refusing an operand, raising
`InvalidInputError`, the platform's reset. There is no memory and no register to operate on (R21, R40).
-/

namespace Sys2Proof.Machine

/-- What `exec` and `step` answer. -/
abbrev Result := Host.Outcome State Fault Refusal

/-- Hand one delivery out, after those already delivered. It is not touched again (R30). -/
def State.deliver (s : State) (d : Delivery) : State := { s with outputs := s.outputs ++ [d] }

/-- Take the oldest input away. -/
def State.consume (s : State) : State := { s with inputs := s.inputs.tail }

/-- Replace the working values. -/
def State.setWork (s : State) (w : Option Work) : State := { s with work := w }

/-- A reset the platform may provide: the operation in progress is abandoned without a response and BCORE is idle and empty
(R200, U8). The waiting inputs and the delivered results are the host's, not BCORE's, and stay. -/
def State.platformReset (s : State) : State := s.setWork none

/-- TAKING THE ONE EXCEPTION: GUARD raises `InvalidInputError(operand)`. Control returns to the host with the operand's name;
no operation starts, and nothing is saved, because nothing was in progress (R184). There is no return from it: the next
request is like any other (R190). -/
def raiseInvalidInput (o : Operand) (s : State) : Result := .next (s.deliver (.invalidInput o))

/-- What the machine answers to an input that is no instruction: the guard's error is taken, all else is refused (R184, R186). -/
def reject (e : DecodeError) (s : State) : Result :=
  match e with
  | .invalidInput o => raiseInvalidInput o s
  | .reservedOp => .refused .reservedOp
  | .emptyOperand o => .refused (.emptyOperand o)
  | .malformedFrame => .refused .malformedFrame
  | .malformedPins u => .refused (.malformedPins u)

/-- An operand of length 0 has no meaning (R67, U4). -/
def emptyRefusal (o : Operand) (s : Bitstring) : Option Refusal :=
  if s.length = 0 then some (.emptyOperand o) else none

/-- An operand longer than `W_MAX` is refused by the instance (R7). -/
def lengthRefusal (c : Config) (o : Operand) (s : Bitstring) : Option Refusal :=
  match c.wMax with
  | none => none
  | some m => if m < s.length then some (.operandTooLong o) else none

/-- The first ground, if any, on which a host request is refused (R67, R186). -/
def requestRefusal (c : Config) (a b : Bitstring) : Option Refusal :=
  emptyRefusal .a a <|> emptyRefusal .b b <|> lengthRefusal c .a a <|> lengthRefusal c .b b

/-- Answer a request with its complete ArithmeticResult, unless it is refused (R45, R59). -/
def respond (a b : Bitstring) (r : ArithmeticResult) (s : State) : Result :=
  match requestRefusal s.cfg a b with
  | some ref => .refused ref
  | none => .next (s.deliver (.response r))

/-- Answer an evaluation of a combinational unit with its outputs (R44, R70). -/
def output (d : Delivery) (s : State) : Result := .next (s.deliver d)

end Sys2Proof.Machine
end

