-- ==== Sys2Proof/Machine/Response.lean ====
section
/-!
DEFINITION. The codes and field orders of what the machine delivers: trace entries on a bit-level trace port (R63), the
error code of a delivery (R182).
-/

namespace Sys2Proof.Machine

/-- The code of a trace entry's kind (R63). -/
def TraceEntry.code : TraceEntry → Nat
  | .faStep _ _ _ _ _ => 0
  | .finalCarry _ => 1
  | .fsStep _ _ _ _ _ => 2
  | .partialProduct _ _ => 3
  | .skip _ => 4

/-- The fields of a trace entry in the order of R63, as port symbols (R56). -/
def TraceEntry.fields : TraceEntry → List PortSymbol
  | .faStep a b cin sum cout => [.bit a, .bit b, .bit cin, .bit sum, .bit cout]
  | .finalCarry carry => [.bit carry]
  | .fsStep a b bin diff bout => [.bit a, .bit b, .bit bin, .bit diff, .bit bout]
  | .partialProduct pp product => operandSymbols pp ++ operandSymbols product
  | .skip zs => operandSymbols zs

/-- The operand a cause code names: 1 for `a`, 2 for `b` (R182). -/
def operandCode : Operand → Nat
  | .a => 1
  | .b => 2

/-- The cause code of a delivery, 0 for no error (R182). -/
def Delivery.errorCode : Delivery → Nat
  | .invalidInput o => operandCode o
  | _ => 0

end Sys2Proof.Machine
end

