-- ==== Sys2Proof/Machine/BitOps.lean ====
section
/-!
DEFINITION. BitOps: the four gate cells AND, OR, XOR, NOT (R80 to R84). They write no flag and emit no trace entry.
-/

namespace Sys2Proof.Machine

/-- 1 if both inputs are 1, else 0 (R80). -/
def gateAnd (a b : Bit) : Bit :=
  match a, b with
  | true, true => true
  | _, _ => false

/-- 0 if both inputs are 0, else 1 (R81). -/
def gateOr (a b : Bit) : Bit :=
  match a, b with
  | false, false => false
  | _, _ => true

/-- 1 if the inputs differ, else 0 (R82). -/
def gateXor (a b : Bit) : Bit :=
  match a, b with
  | true, false => true
  | false, true => true
  | _, _ => false

/-- `1 - a`, a single-bit complement (R83). -/
def gateNot (a : Bit) : Bit :=
  match a with
  | false => true
  | true => false

/-- AND evaluated by itself (R80). -/
def execAnd (a b : Bit) (s : State) : Result := output (.bit (gateAnd a b)) s

/-- OR evaluated by itself (R81). -/
def execOr (a b : Bit) (s : State) : Result := output (.bit (gateOr a b)) s

/-- XOR evaluated by itself (R82). -/
def execXor (a b : Bit) (s : State) : Result := output (.bit (gateXor a b)) s

/-- NOT evaluated by itself (R83). -/
def execNot (a : Bit) (s : State) : Result := output (.bit (gateNot a)) s

end Sys2Proof.Machine
end

