-- ==== Sys2Proof/Machine/Flags.lean ====
section
/-!
DEFINITION. The four single-bit conditions of R25: the running carry and borrow (as the cells compute them from the gates),
the final carry, and `is_negative`. None of them outlives its operation.
-/

namespace Sys2Proof.Machine

/-- `carry_out = (a∧b) ∨ (carry_in∧(a⊕b))` (R100). -/
def carryOut (a b carryIn : Bit) : Bit :=
  gateOr (gateAnd a b) (gateAnd carryIn (gateXor a b))

/-- `borrow_out = (NOT(a) AND b) OR (borrow_in AND XOR(NOT(a), b))`, the form the source calls precise (R103). -/
def borrowOut (a b borrowIn : Bit) : Bit :=
  gateOr (gateAnd (gateNot a) b) (gateAnd borrowIn (gateXor (gateNot a) b))

/-- The other form of `borrow_out`, `(¬a∧b) ∨ (borrow_in∧¬(a⊕b))` (R105). -/
def borrowOutAlternative (a b borrowIn : Bit) : Bit :=
  gateOr (gateAnd (gateNot a) b) (gateAnd borrowIn (gateNot (gateXor a b)))

/-- `is_negative`: the strict unsigned comparison of the aligned operands (R126). -/
def isNegative (a' b' : Bitstring) : Bool := decide (val a' < val b')

/-- The final carry: the running carry after position 0 has been processed (R25, R114). -/
def finalCarry (w : AddWork) : Bit := w.carry

end Sys2Proof.Machine
end

