-- ==== Sys2Proof/Machine/Cells.lean ====
section
/-!
DEFINITION. The FullAdder and FullSubtractor cells, ADD_BIT and SUB_BIT (R100 to R106).
-/

namespace Sys2Proof.Machine

/-- `add_bit(a, b, carry_in) -> (sum_bit, carry_out)` (R100). -/
def addBit (a b carryIn : Bit) : Bit × Bit :=
  (gateXor (gateXor a b) carryIn, carryOut a b carryIn)

/-- `sub_bit(a, b, borrow_in) -> (diff_bit, borrow_out)` (R103). -/
def subBit (a b borrowIn : Bit) : Bit × Bit :=
  (gateXor (gateXor a b) borrowIn, borrowOut a b borrowIn)

/-- ADD_BIT evaluated by itself, all three inputs driven (R100, R102). -/
def execAddBit (a b carryIn : Bit) (s : State) : Result :=
  output (.sumCarry (addBit a b carryIn).1 (addBit a b carryIn).2) s

/-- SUB_BIT evaluated by itself (R103). -/
def execSubBit (a b borrowIn : Bit) (s : State) : Result :=
  output (.diffBorrow (subBit a b borrowIn).1 (subBit a b borrowIn).2) s

end Sys2Proof.Machine
end

