-- ==== Sys2Proof/Machine/Operands.lean ====
section
/-!
DEFINITION. How operands and results are put together from characters (R66): reading a bit, aligning, widening, shifting,
stripping, and the sign character.
-/

namespace Sys2Proof.Machine

/-- `bit(s[i])` (R9, R11, R171). No rule forms an index outside the string (R41); the 0 read there is reached from no working
state that meets the invariant of Safety.lean (log entry 7). -/
def bitAt (s : Bitstring) (i : Nat) : Bit := s.getD i false

/-- Left-pad `s` to length `n` (R12); a longer `s` is returned unchanged. -/
def padTo (n : Nat) (s : Bitstring) : Bitstring := zeros (n - s.length) ++ s

/-- The aligned length `n = max(len(a), len(b))` (R90). -/
def alignedLength (a b : Bitstring) : Nat := max a.length b.length

/-- `pad(a, b)` (R90). -/
def align (a b : Bitstring) : Bitstring × Bitstring :=
  (padTo (alignedLength a b) a, padTo (alignedLength a b) b)

/-- The extended multiplicand `ax = zeros(lb) ++ a` (R141). -/
def extendMultiplicand (a b : Bitstring) : Bitstring := zeros b.length ++ a

/-- The partial product at string index `i` of `b`: `ax ++ zeros(lb-1-i)` (R144). -/
def partialProduct (ax b : Bitstring) (i : Nat) : Bitstring := ax ++ zeros (b.length - 1 - i)

/-- `strip(s)`: leading `'0'` characters are removed and one `'0'` is kept when nothing else is left (R13). -/
def strip : Bitstring → Bitstring
  | false :: b :: s => strip (b :: s)
  | s => s

/-- Prepend SUB's sign character: `'1'` if `is_negative`, else `'0'` (R130). -/
def prependSign (isNegative : Bool) (m : Bitstring) : Bitstring := (if isNegative then true else false) :: m

/-- The sign character of a SUB result, its first character (R61). -/
def signOf (r : Bitstring) : Bit := bitAt r 0

/-- The magnitude part of a SUB result, `r[1:]` (R61, R162). -/
def magnitudeOf (r : Bitstring) : Bitstring := r.drop 1

end Sys2Proof.Machine
end

