-- ==== Sys2Proof/Machine/Adder.lean ====
section
/-!
DEFINITION. The Adder, operation ADD: the full-adder ripple-carry chain (R110 to R117).
-/

namespace Sys2Proof.Machine

/-- Steps 1 and 2 of R110: align, and give every working value its initial value (R22, R31). -/
def addStart (a b : Bitstring) : AddWork :=
  { a' := (align a b).1, b' := (align a b).2, carry := false, acc := [],
    left := alignedLength a b, trace := [] }

/-- Step 3 at string index `i`: one ADD_BIT, its sum bit prepended, its `FA_STEP` entry appended, its carry kept for the next
position (R112, R113). -/
def addAt (w : AddWork) (i : Nat) : AddWork :=
  let x := bitAt w.a' i
  let y := bitAt w.b' i
  let out := addBit x y w.carry
  { w with
    carry := out.2
    acc := out.1 :: w.acc
    left := i
    trace := w.trace ++ [.faStep x y w.carry out.1 out.2] }

/-- One position step, if a position is left (R112). -/
def addPosition (w : AddWork) : AddWork :=
  match w.left with
  | 0 => w
  | i + 1 => addAt w i

/-- `k` position steps, one after another. -/
def addPositions : Nat → AddWork → AddWork
  | 0, w => w
  | k + 1, w => addPositions k (addPosition w)

/-- Step 4: the final carry, if it is 1, as one more character and one more entry (R114). -/
def addFinish (w : AddWork) : ArithmeticResult :=
  if finalCarry w then { result := true :: w.acc, trace := w.trace ++ [.finalCarry true] }
  else { result := w.acc, trace := w.trace }

/-- `add(a, b)`, for the host and for MUL alike (R110). -/
def add (a b : Bitstring) : ArithmeticResult :=
  addFinish (addPositions (alignedLength a b) (addStart a b))

/-- ADD as one step (R110, R45). -/
def execAdd (a b : Bitstring) (s : State) : Result := respond a b (add a b) s

end Sys2Proof.Machine
end

