-- ==== Sys2Proof/Machine/Aligner.lean ====
section
/-!
DEFINITION. The Aligner, unit PAD (R90 to R92). It writes no flag and emits no trace entry.
-/

namespace Sys2Proof.Machine

/-- PAD evaluated by itself (R90); an operand of length 0 has no meaning (R67). -/
def execPad (a b : Bitstring) (s : State) : Result :=
  match (emptyRefusal .a a <|> emptyRefusal .b b) with
  | some ref => .refused ref
  | none => output (.aligned (align a b).1 (align a b).2) s

end Sys2Proof.Machine
end

