-- ==== Sys2Proof/Machine/Multiplier.lean ====
section
/-!
DEFINITION. The Multiplier, operation MUL: shift-and-add with nested ADDs (R140 to R156).
-/

namespace Sys2Proof.Machine

/-- Steps 1 and 2 of R140: extend the multiplicand, `product` is `"0"`, the trace is empty (R24, R31, R141). -/
def mulStart (a b : Bitstring) : MulWork :=
  { ax := extendMultiplicand a b, b := b, product := [false], left := b.length, trace := [], nested := none }

/-- A position whose bit is `'0'`: `product` stays, one `SKIP` entry (R147). -/
def mulSkip (w : MulWork) (i : Nat) : MulWork :=
  { w with left := i, trace := w.trace ++ [.skip (zeros w.ax.length)] }

/-- What follows the nested ADD of the position at index `i`: the sum replaces `product` whole, and the `PARTIAL` entry, with
the new product, stands before the nested entries (R145, R146). -/
def mulAccumulate (w : MulWork) (i : Nat) (pp : Bitstring) (r : ArithmeticResult) : MulWork :=
  { w with product := r.result, left := i, trace := w.trace ++ .partialProduct pp r.result :: r.trace, nested := none }

/-- Step 3 at string index `i` of `b`, the nested ADD taken whole (R140, R143, R154). -/
def mulAt (w : MulWork) (i : Nat) : MulWork :=
  if bitAt w.b i then
    mulAccumulate w i (partialProduct w.ax w.b i) (add w.product (partialProduct w.ax w.b i))
  else mulSkip w i

/-- One position, if one is left (R143). -/
def mulPosition (w : MulWork) : MulWork :=
  match w.left with
  | 0 => w
  | i + 1 => mulAt w i

/-- `k` positions, one after another. -/
def mulPositions : Nat → MulWork → MulWork
  | 0, w => w
  | k + 1, w => mulPositions k (mulPosition w)

/-- Step 4: the product is stripped once, at the end (R148); there is no sign character (R149). -/
def mulFinish (w : MulWork) : ArithmeticResult := { result := strip w.product, trace := w.trace }

/-- `mul(a, b)` (R140). -/
def mul (a b : Bitstring) : ArithmeticResult := mulFinish (mulPositions b.length (mulStart a b))

/-- MUL as one step (R140, R45). -/
def execMul (a b : Bitstring) (s : State) : Result := respond a b (mul a b) s

end Sys2Proof.Machine
end

