-- ==== Sys2Proof/Machine/Subtractor.lean ====
section
/-!
DEFINITION. The Subtractor, operation SUB: the full-subtractor ripple-borrow chain with its sign flag (R125 to R134).
-/

namespace Sys2Proof.Machine

/-- Steps 1 and 2 of R125: align, compute `is_negative`, and give every working value its initial value (R23, R31). -/
def subStart (a b : Bitstring) : SubWork :=
  { a' := (align a b).1, b' := (align a b).2
    isNegative := isNegative (align a b).1 (align a b).2
    borrow := false, acc := [], left := alignedLength a b, trace := [] }

/-- Step 3 at string index `i`: one SUB_BIT, its difference bit prepended, its `FS_STEP` entry appended, its borrow kept for
the next position; the operands are never swapped (R127). -/
def subAt (w : SubWork) (i : Nat) : SubWork :=
  let x := bitAt w.a' i
  let y := bitAt w.b' i
  let out := subBit x y w.borrow
  { w with
    borrow := out.2
    acc := out.1 :: w.acc
    left := i
    trace := w.trace ++ [.fsStep x y w.borrow out.1 out.2] }

/-- One position step, if a position is left (R127). -/
def subPosition (w : SubWork) : SubWork :=
  match w.left with
  | 0 => w
  | i + 1 => subAt w i

/-- `k` position steps, one after another. -/
def subPositions : Nat → SubWork → SubWork
  | 0, w => w
  | k + 1, w => subPositions k (subPosition w)

/-- Steps 4 and 5: strip the magnitude, then prepend the sign (R129, R130). The final borrow is dropped (R128). -/
def subFinish (w : SubWork) : ArithmeticResult :=
  { result := prependSign w.isNegative (strip w.acc), trace := w.trace }

/-- `sub(a, b)` (R125). -/
def sub (a b : Bitstring) : ArithmeticResult :=
  subFinish (subPositions (alignedLength a b) (subStart a b))

/-- SUB as one step (R125, R45). -/
def execSub (a b : Bitstring) (s : State) : Result := respond a b (sub a b) s

end Sys2Proof.Machine
end

