-- ==== Sys2Proof/Machine/Sequencer.lean ====
section
/-!
DEFINITION. The sequencing inside an operation (R169) taken one position at a time, with the working values in State:
starting an operation, moving it on, and handing its response out.
-/

namespace Sys2Proof.Machine

/-- The working values an operation starts from (R31, R201); the combinational units keep none (R25). -/
def startWork : Instr → Option (Bitstring × Bitstring × Work)
  | .add a b => some (a, b, .add (addStart a b))
  | .sub a b => some (a, b, .sub (subStart a b))
  | .mul a b => some (a, b, .mul (mulStart a b))
  | _ => none

/-- Start an operation: its working values are created, unless the request is refused, when none is (R65, R186). -/
def begin (a b : Bitstring) (w : Work) (s : State) : Result :=
  match requestRefusal s.cfg a b with
  | some ref => .refused ref
  | none => .next (s.setWork (some w))

/-- One move of a nested ADD: a position, or, when none is left, its result (R145, R154). -/
def mulNestedMove (w : MulWork) (n : NestedAdd) : MulWork :=
  match n.work.left with
  | 0 => mulAccumulate w (w.left - 1) n.pp (addFinish n.work)
  | _ + 1 => { w with nested := some { n with work := addPosition n.work } }

/-- One move of a MUL at string index `i` of `b`: skip the position, or suspend for a nested ADD (R169). -/
def mulEnterPosition (w : MulWork) (i : Nat) : MulWork :=
  if bitAt w.b i then
    { w with nested := some { pp := partialProduct w.ax w.b i,
                              work := addStart w.product (partialProduct w.ax w.b i) } }
  else mulSkip w i

/-- The complete result if no position is left, else the working values after one more move. -/
def moveWork : Work → ArithmeticResult ⊕ Work
  | .add w =>
    match w.left with
    | 0 => .inl (addFinish w)
    | _ + 1 => .inr (.add (addPosition w))
  | .sub w =>
    match w.left with
    | 0 => .inl (subFinish w)
    | _ + 1 => .inr (.sub (subPosition w))
  | .mul w =>
    match w.nested with
    | some n => .inr (.mul (mulNestedMove w n))
    | none =>
      match w.left with
      | 0 => .inl (mulFinish w)
      | i + 1 => .inr (.mul (mulEnterPosition w i))

/-- Move the operation in progress on. When it is complete its response is delivered whole and BCORE is idle and empty again
(R45, R200). -/
def advance (w : Work) (s : State) : Result :=
  match moveWork w with
  | .inl r => .next ((s.setWork none).deliver (.response r))
  | .inr w' => .next (s.setWork (some w'))

end Sys2Proof.Machine
end

