-- ==== Sys2Proof/Machine/Serve.lean ====
section
/-!
DEFINITION. What a step does with the oldest input when no operation is in progress.
-/

namespace Sys2Proof.Machine

/-- Serve an instruction: as one step, or, where a step is one position, by starting its operation (D11). The combinational
units have no positions (R25). -/
def serve (i : Instr) (s : State) : Result :=
  match s.cfg.granularity, startWork i with
  | .position, some (a, b, w) => begin a b w s
  | _, _ => exec i s

/-- Take the oldest input away, decode it, and serve it or turn it away; with nothing at the inputs BCORE stays idle. -/
def serveOldest (s : State) : Result :=
  match s.inputs with
  | [] => .next s
  | x :: _ =>
    match decode x with
    | .ok i => serve i s.consume
    | .error e => reject e s.consume

end Sys2Proof.Machine
end

