-- ==== Sys2Proof/Machine/Step.lean ====
section
/-!
DEFINITION. One step of the machine: an operation in progress moves on; otherwise the oldest input is served.
-/

namespace Sys2Proof.Machine

/-- One step. Nothing is served while an operation is in progress (R45). -/
def step (s : State) : Host.Outcome State Fault Refusal :=
  match s.work with
  | some w => advance w s
  | none => serveOldest s

/-- `s` with the table word's request as its oldest input, no operation in progress, and a step a whole operation, so that
the next step runs exactly that request (log entry 5). -/
def State.withFetchWord (s : State) (nbits w : Nat) : State :=
  { s with
    cfg := { s.cfg with granularity := .operation }
    inputs := tableInput nbits w :: s.inputs
    work := none }

end Sys2Proof.Machine
end

