-- ==== Sys2Proof/WellFormed.lean ====
section
/-!
DEFINITION. Which instructions are well formed: operands are non-empty (R55, R67, U4), and an operand of a host request
is no longer than `W_MAX` (R7).
-/

namespace Sys2Proof

/-- The length `k` is within the limit; `none` is "unbounded" (R7). -/
def withinLimit (limit : Option Nat) (k : Nat) : Bool :=
  match limit with
  | none => true
  | some m => k ≤ m

/-- A Bitstring that may be an operand of a host request: length at least 1 (R55) and at most `W_MAX` (R7). -/
def requestOperandOk (c : Config) (s : Bitstring) : Bool :=
  decide (1 ≤ s.length) && withinLimit c.wMax s.length

/-- The check on an instruction. PAD is internal, so `W_MAX`, a limit on requests, does not apply to it.
The cells have bits for inputs and need no check (R84). -/
def Instr.wellFormed (c : Config) : Instr → Bool
  | .add a b => requestOperandOk c a && requestOperandOk c b
  | .sub a b => requestOperandOk c a && requestOperandOk c b
  | .mul a b => requestOperandOk c a && requestOperandOk c b
  | .pad a b => decide (1 ≤ a.length) && decide (1 ≤ b.length)
  | .addBit _ _ _ => true
  | .subBit _ _ _ => true
  | .and _ _ => true
  | .or _ _ => true
  | .xor _ _ => true
  | .not _ => true

end Sys2Proof
end

