-- ==== Sys2Proof/Safety.lean ====
section
/-!
DEFINITION. The terms the statements use. First what the laws of the spec say is delivered, in arithmetic on `val` and without
the chains (R160 to R166, R101, R104); then the invariant of the state; then how many steps an operation takes.
-/

namespace Sys2Proof.Machine

/-! ## Bitstrings of a value -/

/-- The Bitstring of length `n` whose value is `v` modulo `2^n` (R9, R10). -/
def toBits : Nat → Nat → Bitstring
  | 0, _ => []
  | n + 1, v => v.testBit n :: toBits n v

/-- The length of the shortest Bitstring of value `v`; it is at least 1 (R13, R55). -/
def shortestLength (v : Nat) : Nat := if v = 0 then 1 else v.log2 + 1

/-- The shortest Bitstring of value `v` (R162, R165). -/
def shortest (v : Nat) : Bitstring := toBits (shortestLength v) v

/-- `r` is the shortest Bitstring with its value. -/
abbrev IsShortest (r : Bitstring) : Prop :=
  1 ≤ r.length ∧ ∀ t : Bitstring, 1 ≤ t.length → val t = val r → r.length ≤ t.length

/-! ## What the laws say of each operation -/

/-- The carry into the position of weight `k` (R161, one position earlier). -/
def carryInto (va vb k : Nat) : Bit := decide (2 ^ k ≤ va % 2 ^ k + vb % 2 ^ k)

/-- The borrow into the position of weight `k`: the law of R164 on the low `k` bits. -/
def borrowInto (va vb k : Nat) : Bit := decide (va % 2 ^ k < vb % 2 ^ k)

/-- The `FA_STEP` entry of the position of weight `k` of an addition of the values `va` and `vb`. -/
def faEntry (va vb k : Nat) : TraceEntry :=
  .faStep (va.testBit k) (vb.testBit k) (carryInto va vb k) ((va + vb).testBit k) (carryInto va vb (k + 1))

/-- The first `n` entries of an addition, in order of increasing weight (R116). -/
def faEntries (va vb n : Nat) : List TraceEntry := (List.range n).map (faEntry va vb)

/-- The whole response to an ADD at aligned length `n` (R160, R161, R116). -/
def addLaw (n va vb : Nat) : ArithmeticResult :=
  if 2 ^ n ≤ va + vb then
    { result := toBits (n + 1) (va + vb), trace := faEntries va vb n ++ [.finalCarry true] }
  else { result := toBits n (va + vb), trace := faEntries va vb n }

/-- `(va - vb) mod 2^n` for `vb ≤ 2^n` (R163). -/
def difference (n va vb : Nat) : Nat := (va + (2 ^ n - vb)) % 2 ^ n

/-- The `FS_STEP` entry of the position of weight `k` of a subtraction, the difference bit being that of R163. -/
def fsEntry (va vb k : Nat) : TraceEntry :=
  .fsStep (va.testBit k) (vb.testBit k) (borrowInto va vb k)
    ((difference (k + 1) (va % 2 ^ (k + 1)) (vb % 2 ^ (k + 1))).testBit k) (borrowInto va vb (k + 1))

/-- The first `n` entries of a subtraction, in order of increasing weight (R131). -/
def fsEntries (va vb n : Nat) : List TraceEntry := (List.range n).map (fsEntry va vb)

/-- The whole response to a SUB at aligned length `n` (R162, R163, R131). -/
def subLaw (n va vb : Nat) : ArithmeticResult :=
  { result := decide (va < vb) :: shortest (difference n va vb), trace := fsEntries va vb n }

/-- The entries of the position of weight `k` of a MUL whose extended multiplicand has length `w = la + lb` and value `va`
(R144 to R147, R151). -/
def mulEntries (w va vb k : Nat) : List TraceEntry :=
  if vb.testBit k then
    .partialProduct (toBits (w + k) (va * 2 ^ k)) (toBits (w + k) (va * (vb % 2 ^ (k + 1)))) ::
      faEntries (va * (vb % 2 ^ k)) (va * 2 ^ k) (w + k)
  else [.skip (zeros w)]

/-- The whole response to a MUL (R165, R152). -/
def mulLaw (la lb va vb : Nat) : ArithmeticResult :=
  { result := shortest (va * vb), trace := (List.range lb).flatMap (mulEntries (la + lb) va vb) }

/-- What each instruction delivers, by the laws and the truth tables. -/
def lawDelivery : Instr → Delivery
  | .add a b => .response (addLaw (max a.length b.length) (val a) (val b))
  | .sub a b => .response (subLaw (max a.length b.length) (val a) (val b))
  | .mul a b => .response (mulLaw a.length b.length (val a) (val b))
  | .pad a b => .aligned (toBits (max a.length b.length) (val a)) (toBits (max a.length b.length) (val b))
  | .addBit a b c => .sumCarry (decide ((a.toNat + b.toNat + c.toNat) % 2 = 1)) (decide (2 ≤ a.toNat + b.toNat + c.toNat))
  | .subBit a b c => .diffBorrow (decide ((a.toNat + b.toNat + c.toNat) % 2 = 1)) (decide (a.toNat < b.toNat + c.toNat))
  | .and a b => .bit (decide (a.toNat + b.toNat = 2))
  | .or a b => .bit (decide (1 ≤ a.toNat + b.toNat))
  | .xor a b => .bit (decide (a.toNat + b.toNat = 1))
  | .not a => .bit (decide (a.toNat = 0))

/-! ## The invariant -/

/-- The working values of an ADD are exactly those of some number of positions done (R22, R161). -/
abbrev AddWork.Ok (w : AddWork) : Prop :=
  w.b'.length = w.a'.length ∧ 1 ≤ w.a'.length ∧ w.left ≤ w.a'.length ∧
  w.carry = carryInto (val w.a') (val w.b') (w.a'.length - w.left) ∧
  w.acc = toBits (w.a'.length - w.left) (val w.a' + val w.b') ∧
  w.trace = faEntries (val w.a') (val w.b') (w.a'.length - w.left)

/-- The same of a SUB (R23, R163, R164). -/
abbrev SubWork.Ok (w : SubWork) : Prop :=
  w.b'.length = w.a'.length ∧ 1 ≤ w.a'.length ∧ w.left ≤ w.a'.length ∧
  w.isNegative = decide (val w.a' < val w.b') ∧
  w.borrow = borrowInto (val w.a') (val w.b') (w.a'.length - w.left) ∧
  w.acc = toBits (w.a'.length - w.left) (difference w.a'.length (val w.a') (val w.b')) ∧
  w.trace = fsEntries (val w.a') (val w.b') (w.a'.length - w.left)

/-- The running product after the `k` lowest positions of a multiplier of value `vb` (R152, R153). -/
def runningProduct (w va vb k : Nat) : Bitstring :=
  if vb % 2 ^ k = 0 then [false] else toBits (w + (vb % 2 ^ k).log2) (va * (vb % 2 ^ k))

/-- The nested ADD of a MUL at weight `k` (R145, R154). -/
abbrev NestedAdd.Ok (n : NestedAdd) (w va vb k : Nat) : Prop :=
  vb.testBit k = true ∧ n.pp = toBits (w + k) (va * 2 ^ k) ∧ n.work.Ok ∧
  n.work.a' = toBits (w + k) (va * (vb % 2 ^ k)) ∧ n.work.b' = toBits (w + k) (va * 2 ^ k)

/-- The same of a MUL (R24). -/
abbrev MulWork.Ok (w : MulWork) : Prop :=
  1 ≤ w.b.length ∧ w.b.length + 1 ≤ w.ax.length ∧ val w.ax < 2 ^ (w.ax.length - w.b.length) ∧ w.left ≤ w.b.length ∧
  w.product = runningProduct w.ax.length (val w.ax) (val w.b) (w.b.length - w.left) ∧
  w.trace = (List.range (w.b.length - w.left)).flatMap (mulEntries w.ax.length (val w.ax) (val w.b)) ∧
  match w.nested with
  | none => True
  | some n => 1 ≤ w.left ∧ n.Ok w.ax.length (val w.ax) (val w.b) (w.b.length - w.left)

/-- The working values of an operation in progress are those its rule gives it. -/
def Work.Ok : Work → Prop
  | .add w => w.Ok
  | .sub w => w.Ok
  | .mul w => w.Ok

/-- A delivery has the shape its format gives it: Bitstrings of length at least 1 (R55, R60, R61, R62), a trace with at least one
entry, aligned operands of one length (R91). -/
def Delivery.Ok : Delivery → Prop
  | .response r => 1 ≤ r.result.length ∧ 1 ≤ r.trace.length
  | .aligned a b => 1 ≤ a.length ∧ a.length = b.length
  | .invalidInput _ => True
  | .sumCarry _ _ => True
  | .diffBorrow _ _ => True
  | .bit _ => True

/-- The invariant of the state. -/
structure State.Inv (s : State) : Prop where
  work    : ∀ w, s.work = some w → w.Ok
  outputs : ∀ d ∈ s.outputs, d.Ok

/-! ## Steps -/

/-- `k` steps, stopping at the first that answers no next state. It is the host's `Host.Core.run` on this machine
(`core_run_eq_runSteps`). -/
def runSteps : Nat → State → Host.Outcome State Fault Refusal
  | 0, s => .next s
  | k + 1, s =>
    match step s with
    | .next t => runSteps k t
    | .fault f => .fault f
    | .refused r => .refused r

/-- How many steps serve an instruction when a step is one position: one to start, one to deliver, and between them one for
each position of a chain, with one more to suspend and one to resume around each nested ADD (R169, R170). -/
def stepsPerPosition : Instr → Nat
  | .add a b => max a.length b.length + 2
  | .sub a b => max a.length b.length + 2
  | .mul a b =>
    2 + ((List.range b.length).map fun k => if (val b).testBit k then a.length + b.length + k + 2 else 1).sum
  | _ => 1

/-- How many steps serve an instruction at a granularity. -/
def stepsFor (g : Granularity) (i : Instr) : Nat :=
  match g with
  | .operation => 1
  | .position => stepsPerPosition i

end Sys2Proof.Machine
end

