-- ==== Sys2Proof/Certificates/Slice0/Obligations.lean ====
section
/-!
DEFINITION. The statements for the provers. Each names the rules of spec/ it formalises.
-/

open Sys2Proof Sys2Proof.Machine

/-! ## Encoding -/

/-- Words written out from the tables of R58 and R70 decode to the instructions they stand for. The operands are
`"11"` and `"01"` for the operations and `"1"`, `"0110"` for PAD; a length stands before its symbols (R56). -/
def Obligations.WrittenWordsDecode : Prop :=
  decode (.port [.op 0b00#2, .len 2, .bit true, .bit true, .len 2, .bit false, .bit true]) =
    .ok (.add [true, true] [false, true]) ∧
  decode (.port [.op 0b01#2, .len 2, .bit true, .bit true, .len 2, .bit false, .bit true]) =
    .ok (.sub [true, true] [false, true]) ∧
  decode (.port [.op 0b10#2, .len 2, .bit true, .bit true, .len 2, .bit false, .bit true]) =
    .ok (.mul [true, true] [false, true]) ∧
  decode (.pins .pad [.len 1, .bit true, .len 4, .bit false, .bit true, .bit true, .bit false]) =
    .ok (.pad [true] [false, true, true, false]) ∧
  decode (.pins .addBit [.bit true, .bit true, .bit false]) = .ok (.addBit true true false) ∧
  decode (.pins .subBit [.bit false, .bit true, .bit false]) = .ok (.subBit false true false) ∧
  decode (.pins .and [.bit true, .bit false]) = .ok (.and true false) ∧
  decode (.pins .or [.bit false, .bit true]) = .ok (.or false true) ∧
  decode (.pins .xor [.bit true, .bit false]) = .ok (.xor true false) ∧
  decode (.pins .not [.bit false]) = .ok (.not false) ∧
  decode (.text 0b01#2 ['1', '1'] ['0', '1']) = .ok (.sub [true, true] [false, true])

/-- Decoding the encoding of any well-formed instruction, with operands of any length and content, gives it back (R56,
R57, R58, R70). The framing beyond R56 and R57 is the model's choice (log entry 16). -/
def Obligations.DecodeOfEncodeIsTheInstruction : Prop :=
  ∀ (c : Config) (i : Instr), i.wellFormed c = true → decode (encode i) = .ok i

/-- A call with the text of two well-formed operands passes the guard and is the request it names (R58, R68, R181). -/
def Obligations.TextCallIsTheRequestItNames : Prop :=
  ∀ a b : Bitstring, 1 ≤ a.length → 1 ≤ b.length →
    decode (encodeText 0b00#2 a b) = .ok (.add a b) ∧
    decode (encodeText 0b01#2 a b) = .ok (.sub a b) ∧
    decode (encodeText 0b10#2 a b) = .ok (.mul a b)

/-- The other direction: an input that decodes is the encoding of the instruction it decodes to, or the text of the
same request. So no two request frames, vectors or texts with the same meaning differ, and no other form is accepted.
The framing beyond R56 and R57 is the model's choice (log entry 16). -/
def Obligations.DecodedInputIsAnEncoding : Prop :=
  ∀ (x : Input) (i : Instr), decode x = .ok i →
    x = encode i ∨
    ∃ (code : BitVec 2) (a b : Bitstring),
      x = encodeText code a b ∧ operationCode i = some code ∧ encode i = .port (requestFrame code a b)

/-- From the host, by text or by request frame, only ADD, SUB and MUL can be requested (R68, R189). -/
def Obligations.HostReachesOnlyThreeOperations : Prop :=
  ∀ (x : Input) (i : Instr), (∀ u v, x ≠ .pins u v) → decode x = .ok i → ∃ code, operationCode i = some code

/-- A request with `op = 11` is refused by name and no next state exists: on the request port and from guarded text
(R65). The refusal's name is the model's choice (log entry 6). -/
def Obligations.ReservedOperationIsRefused : Prop :=
  ∀ (s : State) (a b : Bitstring) (x : Input) (rest : List Input),
    1 ≤ a.length → 1 ≤ b.length → s.work = none → s.inputs = x :: rest →
    x = .port (requestFrame 0b11#2 a b) ∨ x = encodeText 0b11#2 a b →
    step s = .refused .reservedOp

/-- The kind's code and the fields in the order of R63 determine a trace entry. -/
def Obligations.TraceEntryFieldsDetermineIt : Prop :=
  ∀ e f : TraceEntry, e.code = f.code → e.fields = f.fields → e = f

/-! ## The boundary guard -/

/-- A text operand that is empty or has a character other than `'0'` and `'1'` raises `InvalidInputError` naming it,
`a` before `b`; the request is gone, the error is delivered, and nothing else of the state changes (R183, R184). That
the error is a next state is the model's reading (log entry 9). -/
def Obligations.MalformedTextRaisesInvalidInput : Prop :=
  ∀ (s : State) (op : BitVec 2) (ta tb : List Char) (rest : List Input),
    s.work = none → s.inputs = .text op ta tb :: rest →
    ((ta = [] ∨ ∃ c ∈ ta, c ≠ '0' ∧ c ≠ '1') →
      step s = .next { s with inputs := rest, outputs := s.outputs ++ [.invalidInput .a] }) ∧
    ((ta ≠ [] ∧ ∀ c ∈ ta, c = '0' ∨ c = '1') → (tb = [] ∨ ∃ c ∈ tb, c ≠ '0' ∧ c ≠ '1') →
      step s = .next { s with inputs := rest, outputs := s.outputs ++ [.invalidInput .b] })

/-- The cause codes: 1 for operand `a`, 2 for operand `b`, 0 for a delivery that is no error, and no others (R182). -/
def Obligations.CauseCodesNameTheOperand : Prop :=
  ∀ d : Delivery,
    (d.errorCode = 1 ↔ d = .invalidInput .a) ∧ (d.errorCode = 2 ↔ d = .invalidInput .b) ∧
    (d.errorCode = 0 ↔ ∀ o, d ≠ .invalidInput o) ∧ d.errorCode ≤ 2

/-- The guard passes exactly the texts that meet the precondition, and passes them unchanged (R181, R202). -/
def Obligations.GuardPassesExactlyWellFormedText : Prop :=
  ∀ (ta tb : List Char) (a b : Bitstring),
    boundaryGuard ta tb = .ok (a, b) ↔
      (ta ≠ [] ∧ tb ≠ [] ∧ (∀ c ∈ ta, c = '0' ∨ c = '1') ∧ (∀ c ∈ tb, c = '0' ∨ c = '1') ∧
        toText a = ta ∧ toText b = tb)

/-! ## The cells -/

/-- AND is 1 if both inputs are 1; OR is 0 if both are 0; XOR is 1 if they differ; NOT is `1 - a` (R80 to R83). -/
def Obligations.GateCellsFollowTheirTables : Prop :=
  ∀ (a b : Bit) (s : State),
    (∃ o : Bit, exec (.and a b) s = .next (s.deliver (.bit o)) ∧ o.toNat = if a = true ∧ b = true then 1 else 0) ∧
    (∃ o : Bit, exec (.or a b) s = .next (s.deliver (.bit o)) ∧ o.toNat = if a = false ∧ b = false then 0 else 1) ∧
    (∃ o : Bit, exec (.xor a b) s = .next (s.deliver (.bit o)) ∧ o.toNat = if a ≠ b then 1 else 0) ∧
    (∃ o : Bit, exec (.not a) s = .next (s.deliver (.bit o)) ∧ o.toNat = 1 - a.toNat)

/-- ADD_BIT counts the ones among its three inputs and is symmetric in them (R101). The spec marks R101 as its own
inference. -/
def Obligations.AddBitCountsTheOnes : Prop :=
  ∀ (a b c : Bit) (s : State),
    (∃ sum cout : Bit, exec (.addBit a b c) s = .next (s.deliver (.sumCarry sum cout)) ∧
      a.toNat + b.toNat + c.toNat = sum.toNat + 2 * cout.toNat) ∧
    exec (.addBit a b c) s = exec (.addBit b a c) s ∧ exec (.addBit a b c) s = exec (.addBit a c b) s

/-- SUB_BIT's outputs satisfy the identity of R104, and its difference bit is ADD_BIT's sum bit. The spec marks R104 as
its own inference. -/
def Obligations.SubBitSubtractsWithBorrow : Prop :=
  ∀ (a b c : Bit) (s : State),
    ∃ diff bout cout : Bit, exec (.subBit a b c) s = .next (s.deliver (.diffBorrow diff bout)) ∧
      exec (.addBit a b c) s = .next (s.deliver (.sumCarry diff cout)) ∧
      (a.toNat : Int) - b.toNat - c.toNat = diff.toNat - 2 * bout.toNat

/-- The two formulas for `borrow_out` are the same function (R105). The spec marks R105 as its own inference. -/
def Obligations.BorrowFormulasAgree : Prop :=
  ∀ a b c : Bit,
    gateXor (gateNot a) b = gateNot (gateXor a b) ∧ borrowOut a b c = borrowOutAlternative a b c ∧
    ∀ s, ∃ diff, exec (.subBit a b c) s = .next (s.deliver (.diffBorrow diff (borrowOutAlternative a b c)))

/-! ## PAD -/

/-- PAD delivers both operands left-padded with `'0'` to the length of the longer one (R90). -/
def Obligations.PadLeftPadsTheShorterOperand : Prop :=
  ∀ (a b : Bitstring) (s : State), 1 ≤ a.length → 1 ≤ b.length →
    exec (.pad a b) s = .next (s.deliver
      (.aligned (zeros (max a.length b.length - a.length) ++ a) (zeros (max a.length b.length - b.length) ++ b)))

/-- The properties of PAD: equal lengths, unchanged values, idempotence, zeros added only on the left, length at least
1 (R91, R167). The spec marks part (d) of R91, zeros only on the left, as its own inference. -/
def Obligations.PadKeepsValuesAndIsIdempotent : Prop :=
  ∀ (a b : Bitstring) (s : State), 1 ≤ a.length → 1 ≤ b.length →
    ∃ a' b' : Bitstring, exec (.pad a b) s = .next (s.deliver (.aligned a' b')) ∧
      a'.length = max a.length b.length ∧ b'.length = max a.length b.length ∧
      val a' = val a ∧ val b' = val b ∧
      (∃ k, a' = zeros k ++ a) ∧ (∃ k, b' = zeros k ++ b) ∧ 1 ≤ a'.length ∧
      ∀ t, exec (.pad a' b') t = .next (t.deliver (.aligned a' b'))

/-! ## ADD -/

/-- The whole response to an ADD, result and every trace entry, is that of the laws, for operands of all lengths (R110,
R160, R161, R116). The spec marks R161 as its own inference. -/
def Obligations.AddDeliversItsLaw : Prop :=
  ∀ (a b : Bitstring) (s : State), (Instr.add a b).wellFormed s.cfg = true →
    exec (.add a b) s = .next (s.deliver (.response (addLaw (max a.length b.length) (val a) (val b))))

/-- `val(add(a,b).result) = val(a) + val(b)`, exactly (R160). -/
def Obligations.AddResultIsTheExactSum : Prop :=
  ∀ (a b : Bitstring) (s : State), (Instr.add a b).wellFormed s.cfg = true →
    ∃ r, exec (.add a b) s = .next (s.deliver (.response r)) ∧ val r.result = val a + val b

/-- The carry out of every position, the final carry, and the length of the result (R161). The spec marks R161 as its
own inference. -/
def Obligations.AddCarriesAndResultLength : Prop :=
  ∀ (a b : Bitstring) (s : State), (Instr.add a b).wellFormed s.cfg = true →
    ∃ r, exec (.add a b) s = .next (s.deliver (.response r)) ∧
      (∀ k, k < max a.length b.length → ∃ x y cin sum : Bit,
        r.trace[k]? = some (.faStep x y cin sum
          (decide (2 ^ (k + 1) ≤ val a % 2 ^ (k + 1) + val b % 2 ^ (k + 1))))) ∧
      (.finalCarry true ∈ r.trace ↔ 2 ^ max a.length b.length ≤ val a + val b) ∧
      r.result.length = if 2 ^ max a.length b.length ≤ val a + val b then max a.length b.length + 1
        else max a.length b.length

/-- ADD's trace has `n` entries plus one exactly when a final carry occurs; the first `n` are `FA_STEP`, in order of
increasing weight, and it is as long as the result (R116). The spec marks its sentence "len(trace) = len(result)" as its
own inference. -/
def Obligations.AddTraceLengthAndKinds : Prop :=
  ∀ (a b : Bitstring) (s : State), (Instr.add a b).wellFormed s.cfg = true →
    ∃ r, exec (.add a b) s = .next (s.deliver (.response r)) ∧ r.trace.length = r.result.length ∧
      (∀ k, k < max a.length b.length → ∃ cin sum cout : Bit,
        r.trace[k]? = some (.faStep ((val a).testBit k) ((val b).testBit k) cin sum cout)) ∧
      (if 2 ^ max a.length b.length ≤ val a + val b then
        r.trace.length = max a.length b.length + 1 ∧ r.trace[max a.length b.length]? = some (.finalCarry true)
      else r.trace.length = max a.length b.length)

/-- Each position's carry or borrow out is the next position's carry or borrow in, and the first one's is 0
(R112, R127, R203). -/
def Obligations.CarryAndBorrowAreThreaded : Prop :=
  ∀ (a b : Bitstring) (s : State), (Instr.add a b).wellFormed s.cfg = true →
    ∃ r q, exec (.add a b) s = .next (s.deliver (.response r)) ∧ exec (.sub a b) s = .next (s.deliver (.response q)) ∧
      (∃ x y sum cout : Bit, r.trace[0]? = some (.faStep x y false sum cout)) ∧
      (∃ x y diff bout : Bit, q.trace[0]? = some (.fsStep x y false diff bout)) ∧
      ∀ k, k + 1 < max a.length b.length →
        (∃ x y cin sum cout x' y' sum' cout' : Bit,
          r.trace[k]? = some (.faStep x y cin sum cout) ∧ r.trace[k + 1]? = some (.faStep x' y' cout sum' cout')) ∧
        (∃ x y bin diff bout x' y' diff' bout' : Bit,
          q.trace[k]? = some (.fsStep x y bin diff bout) ∧ q.trace[k + 1]? = some (.fsStep x' y' bout diff' bout'))

/-- Swapping ADD's operands keeps the result and swaps the `a` and `b` fields of every `FA_STEP` (R117 g). The spec
marks R117 as its own inference. -/
def Obligations.AddCommutesUpToTraceFields : Prop :=
  ∀ (a b : Bitstring) (s : State), (Instr.add a b).wellFormed s.cfg = true →
    ∃ r q, exec (.add a b) s = .next (s.deliver (.response r)) ∧ exec (.add b a) s = .next (s.deliver (.response q)) ∧
      q.result = r.result ∧
      q.trace = r.trace.map fun
        | .faStep x y cin sum cout => .faStep y x cin sum cout
        | e => e

/-! ## SUB -/

/-- The whole response to a SUB, sign, digits and every trace entry, is that of the laws, for operands of all lengths
and of either order (R125, R162, R163, R164, R131). The spec marks R163 and R164 as its own inferences. -/
def Obligations.SubDeliversItsLaw : Prop :=
  ∀ (a b : Bitstring) (s : State), (Instr.sub a b).wellFormed s.cfg = true →
    exec (.sub a b) s = .next (s.deliver (.response (subLaw (max a.length b.length) (val a) (val b))))

/-- The sign is `'1'` exactly when `val(a) < val(b)`; otherwise the magnitude is the shortest Bitstring of the true difference
(R162). -/
def Obligations.SubSignAndMagnitude : Prop :=
  ∀ (a b : Bitstring) (s : State), (Instr.sub a b).wellFormed s.cfg = true →
    ∃ r, exec (.sub a b) s = .next (s.deliver (.response r)) ∧
      r.result[0]? = some (decide (val a < val b)) ∧
      (val b ≤ val a → val (r.result.drop 1) = val a - val b ∧ IsShortest (r.result.drop 1))

/-- The digits after the sign are `strip(m)` for the `n`-character `m` of value `(val(a) - val(b)) mod 2^n`; when the
minuend is smaller that is `2^n - (val(b) - val(a))` (R163). The spec marks R163 as its own inference. -/
def Obligations.SubDigitsAreTheModularDifference : Prop :=
  ∀ (a b : Bitstring) (s : State), (Instr.sub a b).wellFormed s.cfg = true →
    ∃ r m, exec (.sub a b) s = .next (s.deliver (.response r)) ∧
      r.result.drop 1 = strip m ∧ m.length = max a.length b.length ∧
      (val m : Int) = ((val a : Int) - val b) % 2 ^ max a.length b.length ∧
      (val a < val b → val m = 2 ^ max a.length b.length - (val b - val a))

/-- The borrow out of the last position is 1 exactly when `is_negative`, and so equals the sign character (R164). The
spec marks R164 as its own inference. -/
def Obligations.FinalBorrowEqualsTheSign : Prop :=
  ∀ (a b : Bitstring) (s : State), (Instr.sub a b).wellFormed s.cfg = true →
    ∃ r, exec (.sub a b) s = .next (s.deliver (.response r)) ∧
      ∃ x y bin diff bout : Bit, r.trace.getLast? = some (.fsStep x y bin diff bout) ∧
        (bout = true ↔ val a < val b) ∧ r.result[0]? = some bout

/-- SUB's trace has exactly `n` entries, all `FS_STEP`, in order of increasing weight (R131). -/
def Obligations.SubTraceLengthAndKinds : Prop :=
  ∀ (a b : Bitstring) (s : State), (Instr.sub a b).wellFormed s.cfg = true →
    ∃ r, exec (.sub a b) s = .next (s.deliver (.response r)) ∧ r.trace.length = max a.length b.length ∧
      ∀ k, k < max a.length b.length → ∃ bin diff bout : Bit,
        r.trace[k]? = some (.fsStep ((val a).testBit k) ((val b).testBit k) bin diff bout)

/-- Operands of equal value give `"00"`, whatever their lengths (R130, R134 a, b, f). The spec marks R134 as its own
inference. -/
def Obligations.SubOfEqualValuesIsZero : Prop :=
  ∀ (a b : Bitstring) (s : State), (Instr.sub a b).wellFormed s.cfg = true → val a = val b →
    ∃ r, exec (.sub a b) s = .next (s.deliver (.response r)) ∧ r.result = [false, false]

/-! ## MUL -/

/-- The whole response to a MUL, result and every trace entry of every nested ADD, is that of the laws, for operands of
all lengths (R140, R144 to R147, R151, R165). The spec marks R151 as its own inference, and the fields of PARTIAL and
SKIP follow its decisions D7 and D8 (log entry 10). -/
def Obligations.MulDeliversItsLaw : Prop :=
  ∀ (a b : Bitstring) (s : State), (Instr.mul a b).wellFormed s.cfg = true →
    exec (.mul a b) s = .next (s.deliver (.response (mulLaw a.length b.length (val a) (val b))))

/-- `val(mul(a,b).result) = val(a) * val(b)`, the result is the shortest Bitstring with that value, and it does not depend on the
order of the operands (R165). -/
def Obligations.MulResultIsTheExactProduct : Prop :=
  ∀ (a b : Bitstring) (s : State), (Instr.mul a b).wellFormed s.cfg = true →
    ∃ r q, exec (.mul a b) s = .next (s.deliver (.response r)) ∧ exec (.mul b a) s = .next (s.deliver (.response q)) ∧
      val r.result = val a * val b ∧ IsShortest r.result ∧ q.result = r.result

/-- No `FINAL_CARRY` entry appears in a MUL trace, and each nested sum has the length of its partial product, which is
the aligned length (R151). The spec marks R151 as its own inference, and that the product in a PARTIAL entry is the sum
just returned is R146 by its decision D7 (log entry 10). -/
def Obligations.MulNeverTakesTheFinalCarry : Prop :=
  ∀ (a b : Bitstring) (s : State), (Instr.mul a b).wellFormed s.cfg = true →
    ∃ r, exec (.mul a b) s = .next (s.deliver (.response r)) ∧
      (∀ c, .finalCarry c ∉ r.trace) ∧ ∀ pp product, .partialProduct pp product ∈ r.trace → product.length = pp.length

/-- `len(trace) = lb + sum over the set weights s of b of (la + lb + s)` (R152). The spec marks R152 as its own
inference. -/
def Obligations.MulTraceLength : Prop :=
  ∀ (a b : Bitstring) (s : State), (Instr.mul a b).wellFormed s.cfg = true →
    ∃ r, exec (.mul a b) s = .next (s.deliver (.response r)) ∧
      r.trace.length = b.length +
        (((List.range b.length).filter (fun k => (val b).testBit k)).map (fun k => a.length + b.length + k)).sum

/-- A zero operand gives `"0"`: with an all-zero `b` every position is skipped, with an all-zero `a` every set bit of `b` still
has its `PARTIAL` entry and its whole nested ADD (R155). The fields of PARTIAL and SKIP are those of R146 and R147 by the
spec's decisions D7 and D8 (log entry 10). -/
def Obligations.MulOfZeroOperands : Prop :=
  ∀ (a b : Bitstring) (s : State), (Instr.mul a b).wellFormed s.cfg = true →
    ∃ r, exec (.mul a b) s = .next (s.deliver (.response r)) ∧
      (val b = 0 → r = { result := [false], trace := List.replicate b.length (.skip (zeros (a.length + b.length))) }) ∧
      (val a = 0 → r.result = [false] ∧ r.trace = (List.range b.length).flatMap fun k =>
        if (val b).testBit k then
          .partialProduct (zeros (a.length + b.length + k)) (zeros (a.length + b.length + k)) ::
            List.replicate (a.length + b.length + k) (.faStep false false false false false)
        else [.skip (zeros (a.length + b.length))])

/-- The product before the strip is `"0"` if `b` has no `'1'`, else has length `la + lb + smax`, at most `la + 2*lb -
1`; the response is its strip (R153). The spec marks R153 as its own inference. -/
def Obligations.UnstrippedProductLength : Prop :=
  ∀ (a b : Bitstring) (s : State), (Instr.mul a b).wellFormed s.cfg = true →
    ∃ r product, exec (.mul a b) s = .next (s.deliver (.response r)) ∧
      product = (mulPositions b.length (mulStart a b)).product ∧ r.result = strip product ∧
      (val b = 0 → product = [false]) ∧
      (val b ≠ 0 → product.length = a.length + b.length + (val b).log2 ∧ product.length ≤ a.length + 2 * b.length - 1)

/-- Leading zeros in the operands do not change the value of ADD's result, the whole of a non-negative SUB result, or
MUL's result (R209). The spec marks R209 as its own inference. -/
def Obligations.LeadingZerosKeepTheseResults : Prop :=
  ∀ (a b : Bitstring) (p q : Nat) (s : State), s.cfg.wMax = none → 1 ≤ a.length → 1 ≤ b.length →
    (∃ r r', exec (.add a b) s = .next (s.deliver (.response r)) ∧
      exec (.add (zeros p ++ a) (zeros q ++ b)) s = .next (s.deliver (.response r')) ∧ val r'.result = val r.result) ∧
    (∃ r r', exec (.sub a b) s = .next (s.deliver (.response r)) ∧
      exec (.sub (zeros p ++ a) (zeros q ++ b)) s = .next (s.deliver (.response r')) ∧
      (val b ≤ val a → r'.result = r.result)) ∧
    (∃ r r', exec (.mul a b) s = .next (s.deliver (.response r)) ∧
      exec (.mul (zeros p ++ a) (zeros q ++ b)) s = .next (s.deliver (.response r')) ∧ r'.result = r.result)

/-! ## Refusals -/

/-- An instruction is refused exactly when it is ill formed, and never faults: "every internal function is total over well-formed
Bitstrings" (R185). -/
def Obligations.RefusedExactlyWhenIllFormed : Prop :=
  ∀ (i : Instr) (s : State),
    ((∃ r, exec i s = .refused r) ↔ i.wellFormed s.cfg = false) ∧ (∀ f, exec i s ≠ .fault f)

/-- Where a request or a PAD stops: an empty operand, or, in a request, one longer than `W_MAX`, is refused under its own name
(R7, R67, R186). That emptiness is named before excess length, and `a` before `b`, is the model's choice (log entry 6). -/
def Obligations.IllFormedOperandIsNamed : Prop :=
  ∀ (a b : Bitstring) (s : State),
    (a = [] → ∀ i ∈ [Instr.add a b, .sub a b, .mul a b, .pad a b], exec i s = .refused (.emptyOperand .a)) ∧
    (a ≠ [] → b = [] → ∀ i ∈ [Instr.add a b, .sub a b, .mul a b, .pad a b], exec i s = .refused (.emptyOperand .b)) ∧
    (∀ m, s.cfg.wMax = some m → a ≠ [] → b ≠ [] → m < a.length →
      ∀ i ∈ [Instr.add a b, .sub a b, .mul a b], exec i s = .refused (.operandTooLong .a)) ∧
    (∀ m, s.cfg.wMax = some m → a ≠ [] → b ≠ [] → a.length ≤ m → m < b.length →
      ∀ i ∈ [Instr.add a b, .sub a b, .mul a b], exec i s = .refused (.operandTooLong .b))

/-! ## Frames and independence -/

/-- The frame of every instruction: a next state differs by one delivery at the end of `outputs` and nothing else. The
parameters, the waiting inputs, the operation in progress and all earlier deliveries are unchanged (R20, R28, R30, R51). -/
def Obligations.ExecOnlyDelivers : Prop :=
  ∀ (i : Instr) (s t : State), exec i s = .next t →
    ∃ d, t.outputs = s.outputs ++ [d] ∧ t.cfg = s.cfg ∧ t.inputs = s.inputs ∧ t.work = s.work

/-- The response depends on the request alone, not on earlier requests or anything else the state holds; only `W_MAX` decides
whether there is one (R5, R16, R20). -/
def Obligations.DeliveryDependsOnTheInstructionAlone : Prop :=
  ∀ (i : Instr) (s s' t : State), s.cfg.wMax = s'.cfg.wMax → exec i s = .next t →
    ∃ d, t = s.deliver d ∧ exec i s' = .next (s'.deliver d)

/-- No step reads what has been delivered: deliveries put before those of a state pass through the step unchanged. So a request
after a rejected one is served like any other (R190, R30). -/
def Obligations.StepDoesNotReadDeliveries : Prop :=
  ∀ (s : State) (ds : List Delivery),
    (∀ t, step s = .next t → step { s with outputs := ds ++ s.outputs } = .next { t with outputs := ds ++ t.outputs }) ∧
    (∀ r, step s = .refused r → step { s with outputs := ds ++ s.outputs } = .refused r)

/-- A step keeps the parameters, takes at most one input, adds at most one delivery, and changes no earlier one; while
an operation is in progress it takes no input (R30, R45). The two lists of the interface are the model's choice (log
entry 4). -/
def Obligations.StepKeepsParametersAndDeliveries : Prop :=
  ∀ s t : State, step s = .next t →
    t.cfg = s.cfg ∧
    (t.outputs = s.outputs ∨ ∃ d, t.outputs = s.outputs ++ [d]) ∧
    (t.inputs = s.inputs ∨ (s.work = none ∧ ∃ x, s.inputs = x :: t.inputs))

/-! ## Steps, sequencing, reset -/

/-- A step runs the instruction its oldest input decodes to. With the operation as one step, and for the combinational
units always, the step is `exec` on the state without that input. With one position as one step, an operation that
`exec` would carry out is started, its initial working values held, and one that `exec` refuses is refused. That loading
the working values is a step of its own is the model's choice (log entry 2). -/
def Obligations.StepRunsTheDecodedInstruction : Prop :=
  ∀ (s : State) (x : Input) (rest : List Input) (i : Instr),
    s.work = none → s.inputs = x :: rest → decode x = .ok i →
    (s.cfg.granularity = .operation ∨ operationCode i = none → step s = exec i { s with inputs := rest }) ∧
    (s.cfg.granularity = .position →
      (∀ r, exec i { s with inputs := rest } = .refused r → step s = .refused r) ∧
      (∀ a b t, exec i { s with inputs := rest } = .next t →
        (i = .add a b → step s = .next { s with inputs := rest, work := some (.add (addStart a b)) }) ∧
        (i = .sub a b → step s = .next { s with inputs := rest, work := some (.sub (subStart a b)) }) ∧
        (i = .mul a b → step s = .next { s with inputs := rest, work := some (.mul (mulStart a b)) })))

/-- Whether a step is a whole operation or one position, a waiting instruction is served in the stated number of steps,
with the delivery of the laws and BCORE idle and empty again (D11, R45, R169, R170). The number of steps is the model's
choice (log entry 2), and the spec marks R170 as its own inference. The fields of PARTIAL and SKIP in the delivery follow
the spec's decisions D7 and D8 (log entry 10). -/
def Obligations.EveryGranularityServesTheSameResponse : Prop :=
  ∀ (s : State) (x : Input) (rest : List Input) (i : Instr),
    s.work = none → s.inputs = x :: rest → decode x = .ok i → i.wellFormed s.cfg = true →
    runSteps (stepsFor s.cfg.granularity i) s =
      .next { s with inputs := rest, outputs := s.outputs ++ [lawDelivery i] }

/-- A queue of requests is served in order, each with the response it would have alone (R20, R46). That the order is
the order of arrival is the model's choice (log entry 4), and so is the number of steps (log entry 2). The fields of
PARTIAL and SKIP in the deliveries follow the spec's decisions D7 and D8 (log entry 10). -/
def Obligations.QueueIsServedInOrder : Prop :=
  ∀ (s : State) (is : List Instr),
    s.work = none → s.inputs = is.map encode → (∀ i ∈ is, i.wellFormed s.cfg = true) →
    runSteps ((is.map (stepsFor s.cfg.granularity)).sum) s =
      .next { s with inputs := [], outputs := s.outputs ++ is.map lawDelivery }

/-- An operation once started delivers its response, whatever working values it holds: no step of it stops (R45, R187).
The spec marks R170 as its own inference. -/
def Obligations.StartedOperationDelivers : Prop :=
  ∀ (s : State) (w : Work), s.work = some w →
    ∃ k r, runSteps k s = .next { s with work := none, outputs := s.outputs ++ [.response r] }

/-- Every step keeps the invariant: the working values of the operation in progress are exactly those of some number of
positions done, with every index in range (R22, R23, R24, R41), and every delivery has the shape of its format. The fields of
PARTIAL and SKIP in a MUL's working trace follow the spec's decisions D7 and D8 (log entry 10). -/
def Obligations.StepKeepsTheInvariant : Prop :=
  ∀ s t : State, s.Inv → step s = .next t → t.Inv

/-- The invariant holds after reset. -/
def Obligations.ResetMeetsTheInvariant : Prop := State.reset.Inv

/-- After reset BCORE is idle and empty with `W_MAX` unbounded; a platform reset abandons the operation in progress without a
response, and between operations is unobservable (R7, R200). That waiting inputs and deliveries outlive a platform reset is
the model's choice (log entry 4). -/
def Obligations.ResetLeavesBcoreIdleAndEmpty : Prop :=
  State.reset.work = none ∧ State.reset.inputs = [] ∧ State.reset.outputs = [] ∧ State.reset.cfg.wMax = none ∧
  ∀ s : State, s.platformReset.work = none ∧ s.platformReset.outputs = s.outputs ∧ s.platformReset.inputs = s.inputs ∧
    s.platformReset.cfg = s.cfg ∧ (s.work = none → s.platformReset = s)

/-- With nothing at its inputs and no operation in progress BCORE stays as it is (log entry 3). -/
def Obligations.IdleWithoutInput : Prop :=
  ∀ s : State, s.work = none → s.inputs = [] → step s = .next s
end

