-- ==== Sys2Proof/Laws/Bits.lean ====
section
/-!
SUPPORT. Bitstrings and their values: appending, padding, reading a bit, the Bitstring of a value, stripping.
-/

namespace Sys2Proof

@[simp] theorem zeros_length (k : Nat) : (zeros k).length = k := by simp [zeros]

@[simp] theorem zeros_zero : zeros 0 = [] := rfl

theorem zeros_succ (k : Nat) : zeros (k + 1) = false :: zeros k := rfl

@[simp] theorem val_nil : val [] = 0 := rfl

@[simp] theorem val_cons (b : Bit) (s : Bitstring) : val (b :: s) = b.toNat * 2 ^ s.length + val s := rfl

theorem val_lt (s : Bitstring) : val s < 2 ^ s.length := by
  induction s with
  | nil => simp
  | cons b s ih =>
    simp only [val_cons, List.length_cons, pow_succ]
    cases b
    · simp; omega
    · simp; omega

theorem val_append (s t : Bitstring) : val (s ++ t) = val s * 2 ^ t.length + val t := by
  induction s with
  | nil => simp
  | cons b s ih => simp [ih, pow_add]; ring

@[simp] theorem val_zeros (k : Nat) : val (zeros k) = 0 := by
  induction k with
  | zero => rfl
  | succ k ih => simp [zeros_succ, ih]

/-- Zeros on the left do not change the value (R10). -/
@[simp] theorem val_zeros_append (k : Nat) (s : Bitstring) : val (zeros k ++ s) = val s := by
  simp [val_append]

/-- Zeros on the right shift left (R12). -/
theorem val_append_zeros (s : Bitstring) (k : Nat) : val (s ++ zeros k) = val s * 2 ^ k := by
  simp [val_append]

end Sys2Proof

namespace Sys2Proof.Machine

@[simp] theorem toBits_length (n v : Nat) : (toBits n v).length = n := by
  induction n with
  | zero => rfl
  | succ n ih => simp [toBits, ih]

theorem val_toBits (n v : Nat) : val (toBits n v) = v % 2 ^ n := by
  induction n with
  | zero => simp [toBits, Nat.mod_one]
  | succ n ih =>
    rw [toBits, val_cons, toBits_length, ih, Nat.mod_pow_succ, Nat.testBit_eq_decide_div_mod_eq]
    have h : v / 2 ^ n % 2 < 2 := Nat.mod_lt _ (by decide)
    interval_cases v / 2 ^ n % 2
    · simp
    · simp; omega

/-- Bitstrings of one length are determined by their values (R10, R55). -/
theorem eq_of_val_eq {s t : Bitstring} (hl : s.length = t.length) (hv : val s = val t) : s = t := by
  induction s generalizing t with
  | nil => cases t <;> simp_all
  | cons b s ih =>
    obtain _ | ⟨c, t⟩ := t
    · simp at hl
    · have hl' : s.length = t.length := by simpa using hl
      have hs := val_lt s
      have ht := val_lt t
      simp only [val_cons, hl'] at hv hs
      have : b = c := by
        cases b <;> cases c <;> simp at hv ⊢ <;> omega
      subst this
      rw [ih hl' (by omega)]

theorem toBits_val (s : Bitstring) : toBits s.length (val s) = s :=
  eq_of_val_eq (by simp) (by rw [val_toBits, Nat.mod_eq_of_lt (val_lt s)])

theorem eq_toBits {s : Bitstring} {n v : Nat} (hl : s.length = n) (hv : val s = v) : s = toBits n v := by
  subst hl hv; exact (toBits_val s).symm

theorem toBits_mod (n v : Nat) : toBits n (v % 2 ^ n) = toBits n v :=
  eq_of_val_eq (by simp) (by simp [val_toBits])

theorem toBits_zero (n : Nat) : toBits n 0 = zeros n :=
  eq_of_val_eq (by simp) (by simp [val_toBits])

/-- The character at string index `i` is the bit of weight `len(s)-1-i` (R9). -/
theorem bitAt_eq_testBit (s : Bitstring) (i : Nat) (h : i < s.length) :
    bitAt s i = (val s).testBit (s.length - 1 - i) := by
  induction s generalizing i with
  | nil => simp at h
  | cons b s ih =>
    obtain _ | i := i
    · have hs := val_lt s
      have hd : (b.toNat * 2 ^ s.length + val s) / 2 ^ s.length = b.toNat := by
        rw [Nat.add_comm, Nat.add_mul_div_right _ _ (by positivity), Nat.div_eq_of_lt hs]; simp
      have hb : bitAt (b :: s) 0 = b := rfl
      rw [hb, val_cons, Nat.testBit_eq_decide_div_mod_eq, show (b :: s).length - 1 - 0 = s.length by simp, hd]
      cases b <;> rfl
    · have hi : i < s.length := by simpa using h
      have e : (b :: s).length - 1 - (i + 1) = s.length - 1 - i := by simp; omega
      rw [e, val_cons]
      have : bitAt (b :: s) (i + 1) = bitAt s i := by simp [bitAt]
      rw [this, ih i hi]
      have hk : s.length - 1 - i < s.length := by omega
      rw [Nat.mul_comm, Nat.testBit_two_pow_mul_add _ (val_lt s)]
      simp [hk]

/-! ## Padding -/

theorem padTo_length (n : Nat) (s : Bitstring) (h : s.length ≤ n) : (padTo n s).length = n := by
  simp [padTo]; omega

@[simp] theorem val_padTo (n : Nat) (s : Bitstring) : val (padTo n s) = val s := by simp [padTo]

theorem padTo_eq_toBits (n : Nat) (s : Bitstring) (h : s.length ≤ n) : padTo n s = toBits n (val s) :=
  eq_toBits (padTo_length n s h) (by simp)

/-- PAD as a function of lengths and values (R90, R91). -/
theorem align_eq (a b : Bitstring) :
    align a b = (toBits (alignedLength a b) (val a), toBits (alignedLength a b) (val b)) := by
  simp only [align]
  rw [padTo_eq_toBits _ _ (by simp [alignedLength]), padTo_eq_toBits _ _ (by simp [alignedLength])]

/-! ## Stripping -/

@[simp] theorem val_strip (s : Bitstring) : val (strip s) = val s := by
  fun_induction strip s <;> simp_all

theorem strip_ne_nil {s : Bitstring} (h : s ≠ []) : strip s ≠ [] := by
  fun_induction strip s <;> simp_all

/-- A stripped Bitstring is a single character or begins with `'1'` (R13). -/
theorem strip_single_or_one {s : Bitstring} (h : s ≠ []) : (strip s).length = 1 ∨ ∃ t, strip s = true :: t := by
  fun_induction strip s with
  | case1 b s ih => exact ih (by simp)
  | case2 s hs =>
    match s, hs, h with
    | [_], _, _ => simp
    | true :: t, _, _ => simp
    | false :: b :: t, hs, _ => exact absurd rfl (hs b t)

theorem shortestLength_pos (v : Nat) : 1 ≤ shortestLength v := by
  unfold shortestLength; split <;> omega

theorem lt_two_pow_shortestLength (v : Nat) : v < 2 ^ shortestLength v := by
  unfold shortestLength
  split
  · simp_all
  · exact Nat.lt_log2_self

/-- `strip` gives the shortest Bitstring of its argument's value (R13, R165). -/
theorem strip_eq_shortest {s : Bitstring} (h : s ≠ []) : strip s = shortest (val s) := by
  have hv := val_strip s
  refine eq_toBits ?_ hv
  have hlt := val_lt (strip s)
  rw [hv] at hlt
  obtain h1 | ⟨t, ht⟩ := strip_single_or_one h
  · rw [h1] at hlt ⊢
    unfold shortestLength
    split
    · rfl
    · rename_i h0
      have : val s = 1 := by omega
      rw [this]; decide
  · have hge : 2 ^ t.length ≤ val s := by rw [← hv, ht]; simp
    have h0 : val s ≠ 0 := by have : 0 < 2 ^ t.length := by positivity
                              omega
    have hlen : (strip s).length = t.length + 1 := by simp [ht]
    rw [hlen] at hlt ⊢
    rw [shortestLength, if_neg h0, (Nat.log2_eq_iff h0).2 ⟨hge, hlt⟩]

theorem shortestLength_le {v n : Nat} (hn : 1 ≤ n) (h : v < 2 ^ n) : shortestLength v ≤ n := by
  unfold shortestLength
  split
  · exact hn
  · rename_i h0
    exact (Nat.log2_lt h0).2 h

theorem val_shortest (v : Nat) : val (shortest v) = v := by
  rw [shortest, val_toBits, Nat.mod_eq_of_lt (lt_two_pow_shortestLength v)]

theorem isShortest_shortest (v : Nat) : IsShortest (shortest v) := by
  refine ⟨by simp [shortest, shortestLength_pos], fun t ht hv => ?_⟩
  rw [val_shortest] at hv
  simpa [shortest] using shortestLength_le ht (hv ▸ val_lt t)

end Sys2Proof.Machine
end

