-- ==== Sys2Proof/Laws/Cells.lean ====
section
/-!
SUPPORT. The gates as the Boolean operations, and the cells as counts (R80 to R83, R101, R104).
-/

namespace Sys2Proof.Machine

@[simp] theorem gateAnd_eq (a b : Bit) : gateAnd a b = (a && b) := by cases a <;> cases b <;> rfl
@[simp] theorem gateOr_eq (a b : Bit) : gateOr a b = (a || b) := by cases a <;> cases b <;> rfl
@[simp] theorem gateXor_eq (a b : Bit) : gateXor a b = (a ^^ b) := by cases a <;> cases b <;> rfl
@[simp] theorem gateNot_eq (a : Bit) : gateNot a = !a := by cases a <;> rfl

/-- ADD_BIT counts the ones among its inputs (R101). -/
theorem addBit_eq_count (a b c : Bit) :
    addBit a b c =
      (decide ((a.toNat + b.toNat + c.toNat) % 2 = 1), decide (2 ≤ a.toNat + b.toNat + c.toNat)) := by
  cases a <;> cases b <;> cases c <;> rfl

/-- SUB_BIT subtracts two bits from one (R104). -/
theorem subBit_eq_count (a b c : Bit) :
    subBit a b c =
      (decide ((a.toNat + b.toNat + c.toNat) % 2 = 1), decide (a.toNat < b.toNat + c.toNat)) := by
  cases a <;> cases b <;> cases c <;> rfl

end Sys2Proof.Machine
end

