-- ==== Sys2Proof/Laws/Chains.lean ====
section
/-!
SUPPORT. The ripple chains: one position of ADD and of SUB keeps "the working values are those of the positions done", so the
chain ends with the values of the laws (R161, R163, R164).
-/

namespace Sys2Proof.Machine

/-- The low `k+1` bits of a number from bit `k` and the low `k`. -/
theorem mod_two_pow_succ (v k : Nat) : v % 2 ^ (k + 1) = (v.testBit k).toNat * 2 ^ k + v % 2 ^ k := by
  rw [Nat.mod_pow_succ, Nat.testBit_eq_decide_div_mod_eq]
  have h : v / 2 ^ k % 2 < 2 := Nat.mod_lt _ (by decide)
  interval_cases v / 2 ^ k % 2
  · simp
  · simp; omega

theorem carryInto_zero (va vb : Nat) : carryInto va vb 0 = false := by simp [carryInto, Nat.mod_one]

theorem borrowInto_zero (va vb : Nat) : borrowInto va vb 0 = false := by simp [borrowInto, Nat.mod_one]

/-- A bit as the parity of a quotient. -/
theorem testBit_toNat (v k : Nat) : (v.testBit k).toNat = v / 2 ^ k % 2 := by
  rw [Nat.testBit_eq_decide_div_mod_eq]
  have h : v / 2 ^ k % 2 < 2 := Nat.mod_lt _ (by decide)
  interval_cases v / 2 ^ k % 2 <;> rfl

/-- Bit `k` of a sum, from the operands' bits and the carry into that position. -/
theorem testBit_add (va vb k : Nat) :
    (va + vb).testBit k =
      decide (((va.testBit k).toNat + (vb.testBit k).toNat + (carryInto va vb k).toNat) % 2 = 1) := by
  rw [Nat.testBit_eq_decide_div_mod_eq, testBit_toNat, testBit_toNat, carryInto, Nat.add_div (by positivity)]
  by_cases h : 2 ^ k ≤ va % 2 ^ k + vb % 2 ^ k
  · simp only [h, if_true, decide_true, Bool.toNat_true]
    congr 1; apply propext; omega
  · simp only [h, if_false, decide_false, Bool.toNat_false]
    congr 1; apply propext; omega

/-- The carry out of position `k`, from the operands' bits and the carry in. -/
theorem carryInto_succ (va vb k : Nat) :
    carryInto va vb (k + 1) =
      decide (2 ≤ (va.testBit k).toNat + (vb.testBit k).toNat + (carryInto va vb k).toNat) := by
  have hP : 0 < 2 ^ k := by positivity
  have la := Nat.mod_lt va hP
  have lb := Nat.mod_lt vb hP
  unfold carryInto
  rw [mod_two_pow_succ va, mod_two_pow_succ vb, pow_succ]
  generalize va % 2 ^ k = A at *
  generalize vb % 2 ^ k = B at *
  generalize 2 ^ k = P at *
  cases va.testBit k <;> cases vb.testBit k <;> by_cases hc : P ≤ A + B <;> simp [hc] <;> omega

/-- The borrow out of position `k`, from the operands' bits and the borrow in. -/
theorem borrowInto_succ (va vb k : Nat) :
    borrowInto va vb (k + 1) =
      decide ((va.testBit k).toNat < (vb.testBit k).toNat + (borrowInto va vb k).toNat) := by
  have hP : 0 < 2 ^ k := by positivity
  have la := Nat.mod_lt va hP
  have lb := Nat.mod_lt vb hP
  unfold borrowInto
  rw [mod_two_pow_succ va, mod_two_pow_succ vb]
  generalize va % 2 ^ k = A at *
  generalize vb % 2 ^ k = B at *
  generalize 2 ^ k = P at *
  cases va.testBit k <;> cases vb.testBit k <;> by_cases hc : A < B <;> simp [hc] <;> omega

theorem difference_lt (n va vb : Nat) : difference n va vb < 2 ^ n := Nat.mod_lt _ (by positivity)

/-- The low bits of the modular difference are the modular difference of the low bits (R163). -/
theorem difference_mod {n k : Nat} (hk : k ≤ n) {va vb : Nat} (hb : vb ≤ 2 ^ n) :
    difference n va vb % 2 ^ k = difference k (va % 2 ^ k) (vb % 2 ^ k) := by
  unfold difference
  rw [Nat.mod_mod_of_dvd _ (pow_dvd_pow 2 hk)]
  have hP : 0 < 2 ^ k := by positivity
  have hlt := Nat.mod_lt vb hP
  have e : va + (2 ^ n - vb) + vb = va + 2 ^ n := by omega
  have e' : va % 2 ^ k + (2 ^ k - vb % 2 ^ k) + vb % 2 ^ k = va % 2 ^ k + 2 ^ k := by omega
  have hd : 2 ^ n ≡ 0 [MOD 2 ^ k] := (Nat.modEq_zero_iff_dvd.2 (pow_dvd_pow 2 hk))
  have h1 : (va + (2 ^ n - vb)) + vb ≡ va + 0 [MOD 2 ^ k] := by rw [e]; exact Nat.ModEq.add_left _ hd
  have h2 : (va % 2 ^ k + (2 ^ k - vb % 2 ^ k)) + vb ≡ va + 0 [MOD 2 ^ k] := by
    have : (va % 2 ^ k + (2 ^ k - vb % 2 ^ k)) + vb ≡ (va % 2 ^ k + (2 ^ k - vb % 2 ^ k)) + vb % 2 ^ k [MOD 2 ^ k] :=
      Nat.ModEq.add_left _ (Nat.mod_modEq _ _).symm
    refine this.trans ?_
    rw [e']
    exact (Nat.mod_modEq va _).add (by simp [Nat.ModEq])
  exact Nat.ModEq.add_right_cancel' vb (h1.trans h2.symm)

/-- Bit `k` of the modular difference, from the operands' bits and the borrow into that position. -/
theorem testBit_difference {n k : Nat} (hk : k < n) {va vb : Nat} (hb : vb ≤ 2 ^ n) :
    (difference n va vb).testBit k =
      decide (((va.testBit k).toNat + (vb.testBit k).toNat + (borrowInto va vb k).toNat) % 2 = 1) := by
  obtain ⟨m, rfl⟩ : ∃ m, n = k + 1 + m := ⟨n - (k + 1), by omega⟩
  have hP : 0 < 2 ^ k := by positivity
  have ht : (difference (k + 1 + m) va vb).testBit k = (va + (2 ^ (k + 1 + m) - vb)).testBit k := by
    rw [difference, Nat.testBit_mod_two_pow]; simp [hk]
  have e : va + (2 ^ (k + 1 + m) - vb) + vb = va + 2 ^ k * (2 * 2 ^ m) := by
    rw [show 2 ^ k * (2 * 2 ^ m) = 2 ^ (k + 1 + m) by ring]; omega
  rw [ht, Nat.testBit_eq_decide_div_mod_eq, testBit_toNat, testBit_toNat, borrowInto]
  generalize va + (2 ^ (k + 1 + m) - vb) = D at *
  have hq : D / 2 ^ k + vb / 2 ^ k + (if 2 ^ k ≤ D % 2 ^ k + vb % 2 ^ k then 1 else 0) = va / 2 ^ k + 2 * 2 ^ m := by
    rw [← Nat.add_div hP, e, Nat.add_mul_div_left _ _ hP]
  have hr : (D % 2 ^ k + vb % 2 ^ k) % 2 ^ k = va % 2 ^ k := by
    rw [← Nat.add_mod, e, Nat.add_mul_mod_self_left]
  have ld := Nat.mod_lt D hP
  have lb := Nat.mod_lt vb hP
  have la := Nat.mod_lt va hP
  by_cases h : 2 ^ k ≤ D % 2 ^ k + vb % 2 ^ k
  · rw [Nat.mod_eq_sub_mod h, Nat.mod_eq_of_lt (by omega)] at hr
    have hlt : va % 2 ^ k < vb % 2 ^ k := by omega
    simp only [h, if_true, hlt, decide_true, Bool.toNat_true] at hq ⊢
    congr 1; apply propext; omega
  · rw [Nat.mod_eq_of_lt (by omega)] at hr
    have hlt : ¬ va % 2 ^ k < vb % 2 ^ k := by omega
    simp only [h, if_false, hlt, decide_false, Bool.toNat_false] at hq ⊢
    congr 1; apply propext; omega

theorem faEntries_succ (va vb k : Nat) : faEntries va vb (k + 1) = faEntries va vb k ++ [faEntry va vb k] := by
  simp [faEntries, List.range_succ]

theorem fsEntries_succ (va vb k : Nat) : fsEntries va vb (k + 1) = fsEntries va vb k ++ [fsEntry va vb k] := by
  simp [fsEntries, List.range_succ]

theorem alignedLength_pos {a b : Bitstring} (ha : 1 ≤ a.length) : 1 ≤ alignedLength a b := by
  simp [alignedLength]; omega

/-! ## ADD -/

theorem addStart_ok {a b : Bitstring} (ha : 1 ≤ a.length) : (addStart a b).Ok := by
  have h := alignedLength_pos (b := b) ha
  simp [AddWork.Ok, addStart, align_eq, carryInto_zero, faEntries, toBits, h]

/-- One position of ADD: the working values of `k` positions done become those of `k+1` (R112, R113). -/
theorem addAt_ok {w : AddWork} {i : Nat} (h : w.Ok) (hl : w.left = i + 1) : (addAt w i).Ok := by
  obtain ⟨hb, hn, hle, hc, hacc, htr⟩ := h
  have hi : i < w.a'.length := by omega
  have hk : w.a'.length - i = (w.a'.length - w.left) + 1 := by omega
  have ek : w.a'.length - 1 - i = w.a'.length - w.left := by omega
  have hx := bitAt_eq_testBit w.a' i hi
  have hy := bitAt_eq_testBit w.b' i (by omega)
  rw [hb] at hy
  rw [ek] at hx hy
  refine ⟨hb, hn, by simp [addAt]; omega, ?_, ?_, ?_⟩
  · simp only [addAt, hk, addBit_eq_count, hx, hy, hc, carryInto_succ]
  · simp only [addAt, hk, addBit_eq_count, hx, hy, hc, hacc, toBits, testBit_add]
  · simp only [addAt, hk, addBit_eq_count, hx, hy, hc, htr, faEntries_succ, faEntry, testBit_add, carryInto_succ]

theorem addPosition_ok {w : AddWork} (h : w.Ok) : (addPosition w).Ok := by
  unfold addPosition
  split
  · exact h
  · rename_i i hl; exact addAt_ok h hl

theorem addPosition_operands (w : AddWork) :
    (addPosition w).a' = w.a' ∧ (addPosition w).b' = w.b' ∧ (addPosition w).left = w.left - 1 := by
  unfold addPosition
  split <;> simp_all [addAt]

theorem addPositions_spec (k : Nat) (w : AddWork) (h : w.Ok) :
    (addPositions k w).Ok ∧ (addPositions k w).a' = w.a' ∧ (addPositions k w).b' = w.b' ∧
      (addPositions k w).left = w.left - k := by
  induction k generalizing w with
  | zero => exact ⟨h, rfl, rfl, rfl⟩
  | succ k ih =>
    obtain ⟨h1, h2, h3⟩ := addPosition_operands w
    obtain ⟨i1, i2, i3, i4⟩ := ih _ (addPosition_ok h)
    exact ⟨i1, i2.trans h1, i3.trans h2, by simp only [addPositions, i4, h3]; omega⟩

/-- The end of an ADD: with no position left, the result and the trace are those of the laws (R114, R115, R116). -/
theorem addFinish_eq {w : AddWork} (h : w.Ok) (hl : w.left = 0) :
    addFinish w = addLaw w.a'.length (val w.a') (val w.b') := by
  obtain ⟨hb, hn, hle, hc, hacc, htr⟩ := h
  simp only [hl, Nat.sub_zero] at hc hacc htr
  have ha := val_lt w.a'
  have hb' := val_lt w.b'
  rw [hb] at hb'
  have hcarry : carryInto (val w.a') (val w.b') w.a'.length = decide (2 ^ w.a'.length ≤ val w.a' + val w.b') := by
    rw [carryInto, Nat.mod_eq_of_lt ha, Nat.mod_eq_of_lt hb']
  rw [addFinish, finalCarry, hc, hcarry, addLaw, hacc, htr]
  by_cases ho : 2 ^ w.a'.length ≤ val w.a' + val w.b'
  · have ht : (val w.a' + val w.b').testBit w.a'.length = true := by
      rw [testBit_add, hcarry, Nat.testBit_lt_two_pow ha, Nat.testBit_lt_two_pow hb']; simp [ho]
    simp [ho, toBits, ht]
  · simp [ho]

/-- `add` is the law of ADD at the aligned length. -/
theorem add_eq {a b : Bitstring} (ha : 1 ≤ a.length) : add a b = addLaw (alignedLength a b) (val a) (val b) := by
  obtain ⟨h1, h2, h3, h4⟩ := addPositions_spec (alignedLength a b) _ (addStart_ok (b := b) ha)
  have hlt : ∀ s : Bitstring, s.length ≤ alignedLength a b → val s % 2 ^ alignedLength a b = val s := fun s hs =>
    Nat.mod_eq_of_lt ((val_lt s).trans_le (Nat.pow_le_pow_right (by decide) hs))
  rw [add, addFinish_eq h1 (by rw [h4]; simp [addStart]), h2, h3]
  simp [addStart, align_eq, val_toBits, hlt a (by simp [alignedLength]), hlt b (by simp [alignedLength])]

/-! ## SUB -/

theorem val_aligned_left (a b : Bitstring) : val (align a b).1 = val a := by simp [align]

theorem val_aligned_right (a b : Bitstring) : val (align a b).2 = val b := by simp [align]

theorem subStart_ok {a b : Bitstring} (ha : 1 ≤ a.length) : (subStart a b).Ok := by
  have h := alignedLength_pos (b := b) ha
  refine ⟨?_, ?_, ?_, rfl, ?_, ?_, ?_⟩ <;> simp [subStart, align_eq, borrowInto_zero, fsEntries, toBits, h]

/-- One position of SUB: the working values of `k` positions done become those of `k+1` (R127). -/
theorem subAt_ok {w : SubWork} {i : Nat} (h : w.Ok) (hl : w.left = i + 1) : (subAt w i).Ok := by
  obtain ⟨hb, hn, hle, hs, hc, hacc, htr⟩ := h
  have hi : i < w.a'.length := by omega
  have hk : w.a'.length - i = (w.a'.length - w.left) + 1 := by omega
  have ek : w.a'.length - 1 - i = w.a'.length - w.left := by omega
  have hx := bitAt_eq_testBit w.a' i hi
  have hy := bitAt_eq_testBit w.b' i (by omega)
  rw [hb] at hy
  rw [ek] at hx hy
  have hvb : val w.b' ≤ 2 ^ w.a'.length := by have := val_lt w.b'; rw [hb] at this; omega
  have hd := testBit_difference (n := w.a'.length) (k := w.a'.length - w.left) (va := val w.a') (by omega) hvb
  refine ⟨hb, hn, by simp [subAt]; omega, hs, ?_, ?_, ?_⟩
  · simp only [subAt, hk, subBit_eq_count, hx, hy, hc, borrowInto_succ]
  · simp only [subAt, hk, subBit_eq_count, hx, hy, hc, hacc, toBits, hd]
  · have hd' := difference_mod (n := w.a'.length) (k := w.a'.length - w.left + 1) (va := val w.a') (by omega) hvb
    have ht : (difference (w.a'.length - w.left + 1) (val w.a' % 2 ^ (w.a'.length - w.left + 1))
        (val w.b' % 2 ^ (w.a'.length - w.left + 1))).testBit (w.a'.length - w.left) =
        (difference w.a'.length (val w.a') (val w.b')).testBit (w.a'.length - w.left) := by
      rw [← hd', Nat.testBit_mod_two_pow]; simp
    simp only [subAt, hk, subBit_eq_count, hx, hy, hc, htr, fsEntries_succ, fsEntry, ht, hd, borrowInto_succ]

theorem subPosition_ok {w : SubWork} (h : w.Ok) : (subPosition w).Ok := by
  unfold subPosition
  split
  · exact h
  · rename_i i hl; exact subAt_ok h hl

theorem subPosition_operands (w : SubWork) :
    (subPosition w).a' = w.a' ∧ (subPosition w).b' = w.b' ∧ (subPosition w).left = w.left - 1 := by
  unfold subPosition
  split <;> simp_all [subAt]

theorem subPositions_spec (k : Nat) (w : SubWork) (h : w.Ok) :
    (subPositions k w).Ok ∧ (subPositions k w).a' = w.a' ∧ (subPositions k w).b' = w.b' ∧
      (subPositions k w).left = w.left - k := by
  induction k generalizing w with
  | zero => exact ⟨h, rfl, rfl, rfl⟩
  | succ k ih =>
    obtain ⟨h1, h2, h3⟩ := subPosition_operands w
    obtain ⟨i1, i2, i3, i4⟩ := ih _ (subPosition_ok h)
    exact ⟨i1, i2.trans h1, i3.trans h2, by simp only [subPositions, i4, h3]; omega⟩

/-- The end of a SUB: with no position left, the result and the trace are those of the laws (R129, R130, R163). -/
theorem subFinish_eq {w : SubWork} (h : w.Ok) (hl : w.left = 0) :
    subFinish w = subLaw w.a'.length (val w.a') (val w.b') := by
  obtain ⟨hb, hn, hle, hs, hc, hacc, htr⟩ := h
  simp only [hl, Nat.sub_zero] at hacc htr
  have hne : w.acc ≠ [] := by
    intro h0
    have := congrArg List.length (hacc.symm.trans h0)
    rw [toBits_length] at this
    simp at this; simp [this] at hn
  rw [subFinish, subLaw, strip_eq_shortest hne, hs, htr, hacc, val_toBits, Nat.mod_eq_of_lt (difference_lt _ _ _)]
  simp [prependSign]

/-- `sub` is the law of SUB at the aligned length. -/
theorem sub_eq {a b : Bitstring} (ha : 1 ≤ a.length) : sub a b = subLaw (alignedLength a b) (val a) (val b) := by
  obtain ⟨h1, h2, h3, h4⟩ := subPositions_spec (alignedLength a b) _ (subStart_ok (b := b) ha)
  rw [sub, subFinish_eq h1 (by rw [h4]; simp [subStart]), h2, h3]
  simp only [subStart, val_aligned_left, val_aligned_right]
  simp [align_eq]

end Sys2Proof.Machine
end

