-- ==== Sys2Proof/Laws/Decode.lean ====
section
/-!
SUPPORT. What the decoder's parts read and what they accept.
-/

namespace Sys2Proof

/-! ## Text -/

theorem charBit_bitChar (b : Bit) : charBit (bitChar b) = some b := by cases b <;> rfl

theorem charBit_eq_some {c : Char} {b : Bit} : charBit c = some b ↔ c = bitChar b := by
  unfold charBit bitChar
  split
  · rename_i h; subst h; cases b <;> simp
  · split
    · rename_i h; subst h; cases b <;> simp
    · cases b <;> simp_all

theorem charBit_eq_none {c : Char} : charBit c = none ↔ c ≠ '0' ∧ c ≠ '1' := by
  unfold charBit; split <;> simp_all

/-- A text reads as `s` exactly when it is `s` written in characters (R11, R56). -/
theorem readChars_eq_some {t : List Char} {s : Bitstring} : readChars t = some s ↔ t = toText s := by
  induction t generalizing s with
  | nil => cases s <;> simp [readChars, toText]
  | cons c t ih =>
    cases s with
    | nil => simp only [readChars, toText, List.map_nil]; split <;> simp
    | cons b s =>
      simp only [readChars, toText, List.map_cons, List.cons.injEq]
      rw [← charBit_eq_some, show List.map bitChar s = toText s from rfl, ← ih]
      cases charBit c <;> cases readChars t <;> simp

theorem readChars_eq_none {t : List Char} : readChars t = none ↔ ∃ c ∈ t, c ≠ '0' ∧ c ≠ '1' := by
  induction t with
  | nil => simp [readChars]
  | cons c t ih =>
    have h : (∃ d ∈ c :: t, d ≠ '0' ∧ d ≠ '1') ↔ charBit c = none ∨ readChars t = none := by
      rw [ih, charBit_eq_none]; simp
    rw [h, readChars]
    cases charBit c <;> cases readChars t <;> simp

/-- GUARD's test of one operand passes exactly the non-empty texts of a Bitstring (R181, R191). -/
theorem readOperand_eq_some {t : List Char} {s : Bitstring} : readOperand t = some s ↔ t = toText s ∧ s ≠ [] := by
  unfold readOperand
  cases t with
  | nil => cases s <;> simp [toText]
  | cons c t =>
    rw [readChars_eq_some]
    constructor
    · intro h; exact ⟨h, by rintro rfl; simp [toText] at h⟩
    · exact And.left

theorem readOperand_eq_none {t : List Char} : readOperand t = none ↔ t = [] ∨ ∃ c ∈ t, c ≠ '0' ∧ c ≠ '1' := by
  unfold readOperand
  cases t with
  | nil => simp
  | cons c t => rw [readChars_eq_none]; simp

/-! ## The bit-level port -/

theorem takeBits_map (s : Bitstring) (rest : List PortSymbol) :
    takeBits s.length (s.map .bit ++ rest) = some (s, rest) := by
  induction s with
  | nil => rfl
  | cons b s ih => simp [takeBits, ih]

theorem takeBits_eq_some {k : Nat} {f : List PortSymbol} {s : Bitstring} {rest : List PortSymbol}
    (h : takeBits k f = some (s, rest)) : s.length = k ∧ f = s.map .bit ++ rest := by
  induction k generalizing f s with
  | zero => simp only [takeBits, Option.some.injEq, Prod.mk.injEq] at h; obtain ⟨rfl, rfl⟩ := h; simp
  | succ k ih =>
    match f, h with
    | .bit b :: f, h =>
      simp only [takeBits] at h
      split at h
      · rename_i s' rest' hs
        simp only [Option.some.injEq, Prod.mk.injEq] at h
        obtain ⟨rfl, rfl⟩ := h
        obtain ⟨h1, h2⟩ := ih hs
        simp [h1, ← h2]
      · simp at h
    | [], h => simp [takeBits] at h
    | .op _ :: _, h => simp [takeBits] at h
    | .len _ :: _, h => simp [takeBits] at h

theorem takeOperand_symbols (s : Bitstring) (rest : List PortSymbol) :
    takeOperand (operandSymbols s ++ rest) = some (s, rest) := by
  simp [takeOperand, operandSymbols, takeBits_map]

/-- The symbols of an operand are the only ones it is read from (R56). -/
theorem takeOperand_eq_some {f : List PortSymbol} {s : Bitstring} {rest : List PortSymbol}
    (h : takeOperand f = some (s, rest)) : f = operandSymbols s ++ rest := by
  unfold takeOperand at h
  split at h
  · obtain ⟨h1, h2⟩ := takeBits_eq_some h
    simp [operandSymbols, h1, h2]
  · simp at h

theorem decodeOperands_symbols {bad : DecodeError} {a b : Bitstring} (ha : 1 ≤ a.length) (hb : 1 ≤ b.length) :
    decodeOperands bad (operandSymbols a ++ operandSymbols b) = .ok (a, b) := by
  have h := takeOperand_symbols b []
  rw [List.append_nil] at h
  simp only [decodeOperands, takeOperand_symbols, h]
  rw [if_neg (by omega), if_neg (by omega)]

/-- Two operands are read from their symbols and from nothing else (R57). -/
theorem decodeOperands_eq_ok {bad : DecodeError} {f : List PortSymbol} {a b : Bitstring}
    (h : decodeOperands bad f = .ok (a, b)) : f = operandSymbols a ++ operandSymbols b ∧ 1 ≤ a.length ∧ 1 ≤ b.length := by
  unfold decodeOperands at h
  split at h
  · simp at h
  · rename_i a' rest h1
    split at h
    · rename_i b' h2
      split at h
      · simp at h
      · split at h
        · simp at h
        · simp only [Except.ok.injEq, Prod.mk.injEq] at h
          obtain ⟨rfl, rfl⟩ := h
          rw [takeOperand_eq_some h1, takeOperand_eq_some h2]
          exact ⟨by simp, by omega, by omega⟩
    · simp at h

/-- The operation select has three values with a meaning (R58, R65). -/
theorem selectOperation_cases (op : BitVec 2) (a b : Bitstring) :
    (op = 0b00#2 ∧ selectOperation op a b = .ok (.add a b)) ∨ (op = 0b01#2 ∧ selectOperation op a b = .ok (.sub a b)) ∨
    (op = 0b10#2 ∧ selectOperation op a b = .ok (.mul a b)) ∨ (op = 0b11#2 ∧ selectOperation op a b = .error .reservedOp) := by
  have h : ∀ v : BitVec 2, v = 0b00#2 ∨ v = 0b01#2 ∨ v = 0b10#2 ∨ v = 0b11#2 := by decide
  obtain rfl | rfl | rfl | rfl := h op
  · exact .inl ⟨rfl, rfl⟩
  · exact .inr (.inl ⟨rfl, rfl⟩)
  · exact .inr (.inr (.inl ⟨rfl, rfl⟩))
  · exact .inr (.inr (.inr ⟨rfl, rfl⟩))

end Sys2Proof
end

