-- ==== Sys2Proof/Laws/State.lean ====
section
/-!
SUPPORT. One lemma per field per update of State, true by rfl.
-/

namespace Sys2Proof.Machine

@[simp] theorem deliver_cfg (s : State) (d : Delivery) : (s.deliver d).cfg = s.cfg := rfl
@[simp] theorem deliver_inputs (s : State) (d : Delivery) : (s.deliver d).inputs = s.inputs := rfl
@[simp] theorem deliver_work (s : State) (d : Delivery) : (s.deliver d).work = s.work := rfl
@[simp] theorem deliver_outputs (s : State) (d : Delivery) : (s.deliver d).outputs = s.outputs ++ [d] := rfl

@[simp] theorem consume_cfg (s : State) : s.consume.cfg = s.cfg := rfl
@[simp] theorem consume_inputs (s : State) : s.consume.inputs = s.inputs.tail := rfl
@[simp] theorem consume_work (s : State) : s.consume.work = s.work := rfl
@[simp] theorem consume_outputs (s : State) : s.consume.outputs = s.outputs := rfl

@[simp] theorem setWork_cfg (s : State) (w : Option Work) : (s.setWork w).cfg = s.cfg := rfl
@[simp] theorem setWork_inputs (s : State) (w : Option Work) : (s.setWork w).inputs = s.inputs := rfl
@[simp] theorem setWork_work (s : State) (w : Option Work) : (s.setWork w).work = w := rfl
@[simp] theorem setWork_outputs (s : State) (w : Option Work) : (s.setWork w).outputs = s.outputs := rfl

@[simp] theorem platformReset_eq (s : State) : s.platformReset = s.setWork none := rfl

@[simp] theorem reset_cfg : State.reset.cfg = Config.standard := rfl
@[simp] theorem reset_inputs : State.reset.inputs = [] := rfl
@[simp] theorem reset_work : State.reset.work = none := rfl
@[simp] theorem reset_outputs : State.reset.outputs = [] := rfl

theorem setWork_none_of_idle {s : State} (h : s.work = none) : s.setWork none = s := by
  cases s; simp only [State.setWork] at *; simp [h]

end Sys2Proof.Machine
end

