-- ==== Sys2Proof/Laws/Ops.lean ====
section
/-!
SUPPORT. What each shared operation over State can do, said once.
-/

namespace Sys2Proof.Machine

theorem emptyRefusal_eq_none {o : Operand} {s : Bitstring} : emptyRefusal o s = none ↔ 1 ≤ s.length := by
  by_cases h : s.length = 0
  · simp only [emptyRefusal, h]; simp
  · simp only [emptyRefusal, h]; simp; omega

theorem lengthRefusal_eq_none {c : Config} {o : Operand} {s : Bitstring} :
    lengthRefusal c o s = none ↔ withinLimit c.wMax s.length = true := by
  unfold lengthRefusal withinLimit
  cases c.wMax <;> simp

/-- A request is refused for none of the grounds exactly when both operands are ones a request may have (R7, R67). -/
theorem requestRefusal_eq_none {c : Config} {a b : Bitstring} :
    requestRefusal c a b = none ↔ (requestOperandOk c a && requestOperandOk c b) = true := by
  simp only [requestRefusal, Option.orElse_eq_orElse, Option.orElse_eq_or, Option.or_eq_none_iff,
    emptyRefusal_eq_none, lengthRefusal_eq_none, requestOperandOk, Bool.and_eq_true, decide_eq_true_eq]
  tauto

theorem respond_of_ok {a b : Bitstring} {r : ArithmeticResult} {s : State}
    (h : (requestOperandOk s.cfg a && requestOperandOk s.cfg b) = true) :
    respond a b r s = .next (s.deliver (.response r)) := by
  simp only [respond, requestRefusal_eq_none.2 h]

/-- `respond` delivers its result on well-formed operands and otherwise refuses. -/
theorem respond_cases (a b : Bitstring) (r : ArithmeticResult) (s : State) :
    ((requestOperandOk s.cfg a && requestOperandOk s.cfg b) = true ∧
      respond a b r s = .next (s.deliver (.response r))) ∨
    ((requestOperandOk s.cfg a && requestOperandOk s.cfg b) = false ∧
      ∃ ref, requestRefusal s.cfg a b = some ref ∧ respond a b r s = .refused ref) := by
  by_cases h : (requestOperandOk s.cfg a && requestOperandOk s.cfg b) = true
  · exact .inl ⟨h, respond_of_ok h⟩
  · obtain ⟨ref, hr⟩ := Option.ne_none_iff_exists'.1 (mt requestRefusal_eq_none.1 h)
    exact .inr ⟨by simpa using h, ref, hr, by simp only [respond, hr]⟩

/-- The refusals of a request look at nothing of the configuration but `W_MAX`. -/
theorem requestRefusal_congr {c c' : Config} (h : c.wMax = c'.wMax) (a b : Bitstring) :
    requestRefusal c a b = requestRefusal c' a b := by
  simp only [requestRefusal, lengthRefusal, h]

/-- `reject` delivers the guard's error or refuses (R184, R186). -/
theorem reject_cases (e : DecodeError) (s : State) :
    (∃ o, e = .invalidInput o ∧ reject e s = .next (s.deliver (.invalidInput o))) ∨
    ∃ ref, ∀ t, reject e t = .refused ref := by
  cases e with
  | invalidInput o => exact .inl ⟨o, rfl, rfl⟩
  | reservedOp => exact .inr ⟨_, fun _ => rfl⟩
  | emptyOperand o => exact .inr ⟨_, fun _ => rfl⟩
  | malformedFrame => exact .inr ⟨_, fun _ => rfl⟩
  | malformedPins u => exact .inr ⟨_, fun _ => rfl⟩

/-- `advance` keeps everything but the working values, and either holds the moved ones or delivers one response and is idle. -/
theorem advance_cases (w : Work) (s : State) :
    (∃ r, moveWork w = .inl r ∧ advance w s = .next ((s.setWork none).deliver (.response r))) ∨
    ∃ w', moveWork w = .inr w' ∧ advance w s = .next (s.setWork (some w')) := by
  unfold advance
  cases moveWork w with
  | inl r => exact .inl ⟨r, rfl, rfl⟩
  | inr w' => exact .inr ⟨w', rfl, rfl⟩

end Sys2Proof.Machine
end

