-- ==== Sys2Proof/Laws/PerInstr.lean ====
section
/-!
SUPPORT. A statement about each instruction as syntax. RequestFormat: an instruction is encoded as a request frame exactly when it
has an operation code (R58, R70).
-/

namespace Sys2Proof.Laws

/-- `i` is encoded on the request port exactly when it is one the host can request. -/
def RequestFormat.Statement (i : Instr) : Prop := (∃ f, encode i = .port f) ↔ (operationCode i).isSome = true

theorem RequestFormat.add (a b : Bitstring) : RequestFormat.Statement (.add a b) := by
  simp [RequestFormat.Statement, encode, operationCode]

theorem RequestFormat.sub (a b : Bitstring) : RequestFormat.Statement (.sub a b) := by
  simp [RequestFormat.Statement, encode, operationCode]

theorem RequestFormat.mul (a b : Bitstring) : RequestFormat.Statement (.mul a b) := by
  simp [RequestFormat.Statement, encode, operationCode]

theorem RequestFormat.pad (a b : Bitstring) : RequestFormat.Statement (.pad a b) := by
  simp [RequestFormat.Statement, encode, operationCode]

theorem RequestFormat.addBit (a b carryIn : Bit) : RequestFormat.Statement (.addBit a b carryIn) := by
  simp [RequestFormat.Statement, encode, operationCode]

theorem RequestFormat.subBit (a b borrowIn : Bit) : RequestFormat.Statement (.subBit a b borrowIn) := by
  simp [RequestFormat.Statement, encode, operationCode]

theorem RequestFormat.and (a b : Bit) : RequestFormat.Statement (.and a b) := by
  simp [RequestFormat.Statement, encode, operationCode]

theorem RequestFormat.or (a b : Bit) : RequestFormat.Statement (.or a b) := by
  simp [RequestFormat.Statement, encode, operationCode]

theorem RequestFormat.xor (a b : Bit) : RequestFormat.Statement (.xor a b) := by
  simp [RequestFormat.Statement, encode, operationCode]

theorem RequestFormat.not (a : Bit) : RequestFormat.Statement (.not a) := by
  simp [RequestFormat.Statement, encode, operationCode]

end Sys2Proof.Laws
end

