-- ==== Sys2Proof/Laws/Product.lean ====
section
/-!
SUPPORT. The multiplier: one position of MUL keeps "the running product and the trace are those of the positions done", the
nested ADD never has a final carry (R151), and the end is the law of MUL (R152, R165).
-/

namespace Sys2Proof.Machine

theorem testBit_true_mod {v k : Nat} (h : v.testBit k = true) : v % 2 ^ (k + 1) = 2 ^ k + v % 2 ^ k := by
  simp [mod_two_pow_succ, h]

theorem testBit_false_mod {v k : Nat} (h : v.testBit k = false) : v % 2 ^ (k + 1) = v % 2 ^ k := by
  simp [mod_two_pow_succ, h]

/-- A product of the multiplicand and `m < 2^(j+1)` fits in `w + j` bits, one bit of room being kept by the extension (R151). -/
theorem product_fits {w lb va m j : Nat} (hlb : 1 ≤ lb) (hw : lb + 1 ≤ w) (hva : va < 2 ^ (w - lb)) (hm : m < 2 ^ (j + 1)) :
    va * m < 2 ^ (w + j) := by
  have h1 : va * m < 2 ^ (w - lb) * 2 ^ (j + 1) := by
    rcases Nat.eq_zero_or_pos m with h0 | h0
    · subst h0; positivity
    · exact Nat.mul_lt_mul_of_lt_of_le hva hm.le (by positivity)
  refine h1.trans_le ?_
  rw [← pow_add]
  exact Nat.pow_le_pow_right (by decide) (by omega)

theorem runningProduct_ne_nil (w va vb k : Nat) (hw : 1 ≤ w) : 1 ≤ (runningProduct w va vb k).length := by
  unfold runningProduct; split
  · simp
  · simp; omega

theorem runningProduct_length_le {w vb k : Nat} (va : Nat) (hw : 1 ≤ w) :
    (runningProduct w va vb k).length ≤ w + k := by
  unfold runningProduct; split
  · simp; omega
  · rename_i h
    have := (Nat.log2_lt h).2 (Nat.mod_lt vb (show 0 < 2 ^ k by positivity))
    simp; omega

theorem val_runningProduct {w lb va vb k : Nat} (hlb : 1 ≤ lb) (hw : lb + 1 ≤ w) (hva : va < 2 ^ (w - lb)) :
    val (runningProduct w va vb k) = va * (vb % 2 ^ k) := by
  unfold runningProduct; split
  · rename_i h; simp [h]
  · rw [val_toBits, Nat.mod_eq_of_lt (product_fits hlb hw hva Nat.lt_log2_self)]

/-- The nested ADD of a position with a set bit: no final carry, and the sum is the next running product (R145, R151). -/
theorem nestedAdd_law {w lb va vb k : Nat} (hlb : 1 ≤ lb) (hw : lb + 1 ≤ w) (hva : va < 2 ^ (w - lb))
    (hbit : vb.testBit k = true) :
    addLaw (w + k) (va * (vb % 2 ^ k)) (va * 2 ^ k) =
      { result := runningProduct w va vb (k + 1), trace := faEntries (va * (vb % 2 ^ k)) (va * 2 ^ k) (w + k) } := by
  have hm := testBit_true_mod hbit
  have hsum : va * (vb % 2 ^ k) + va * 2 ^ k = va * (vb % 2 ^ (k + 1)) := by rw [hm]; ring
  have hlt : va * (vb % 2 ^ (k + 1)) < 2 ^ (w + k) :=
    product_fits hlb hw hva (Nat.mod_lt _ (by positivity))
  have hk : 0 < 2 ^ k := by positivity
  have hne : vb % 2 ^ (k + 1) ≠ 0 := by omega
  have hlog : (vb % 2 ^ (k + 1)).log2 = k :=
    (Nat.log2_eq_iff hne).2 ⟨by omega, Nat.mod_lt _ (by positivity)⟩
  rw [addLaw, hsum, if_neg (by omega), runningProduct, if_neg hne, hlog]

theorem partialProduct_eq (ax b : Bitstring) (i k : Nat) (hk : b.length - 1 - i = k) :
    partialProduct ax b i = toBits (ax.length + k) (val ax * 2 ^ k) := by
  subst hk; exact eq_toBits (by simp [partialProduct]) (by simp [partialProduct, val_append_zeros])

theorem mulEntries_true {w va vb k : Nat} (h : vb.testBit k = true) :
    mulEntries w va vb k = .partialProduct (toBits (w + k) (va * 2 ^ k)) (runningProduct w va vb (k + 1)) ::
      faEntries (va * (vb % 2 ^ k)) (va * 2 ^ k) (w + k) := by
  have hm := testBit_true_mod h
  have hk : 0 < 2 ^ k := by positivity
  have hne : vb % 2 ^ (k + 1) ≠ 0 := by omega
  have hlog : (vb % 2 ^ (k + 1)).log2 = k :=
    (Nat.log2_eq_iff hne).2 ⟨by omega, Nat.mod_lt _ (by positivity)⟩
  rw [mulEntries, if_pos h, runningProduct, if_neg hne, hlog]

theorem flatMap_range_succ {α : Type} (f : Nat → List α) (k : Nat) :
    (List.range (k + 1)).flatMap f = (List.range k).flatMap f ++ f k := by
  simp [List.range_succ, List.flatMap_append]

/-! ## The start, a position, the end -/

theorem mulStart_ok {a b : Bitstring} (ha : 1 ≤ a.length) (hb : 1 ≤ b.length) : (mulStart a b).Ok := by
  have hva := val_lt a
  refine ⟨hb, by simp [mulStart, extendMultiplicand]; omega, ?_, le_refl _, ?_, ?_, trivial⟩
  · simpa [mulStart, extendMultiplicand] using hva
  · simp [mulStart, runningProduct, Nat.mod_one]
  · simp [mulStart]

/-- The bit a MUL tests at string index `i` is the bit of weight `lb-1-i` (R143). -/
theorem mul_bit {w : MulWork} {i : Nat} (h : w.Ok) (hl : w.left = i + 1) :
    bitAt w.b i = (val w.b).testBit (w.b.length - w.left) := by
  obtain ⟨hlb, -, -, hle, -⟩ := h
  rw [bitAt_eq_testBit _ _ (by omega), hl]
  congr 1; omega

/-- A position whose bit is `'0'` (R147). -/
theorem mulSkip_ok {w : MulWork} {i : Nat} (h : w.Ok) (hl : w.left = i + 1) (hn : w.nested = none)
    (hbit : (val w.b).testBit (w.b.length - w.left) = false) : (mulSkip w i).Ok := by
  obtain ⟨hlb, hax, hva, hle, hp, ht, -⟩ := h
  have hk : w.b.length - i = w.b.length - w.left + 1 := by omega
  have hm := testBit_false_mod hbit
  refine ⟨hlb, hax, hva, by simp [mulSkip]; omega, ?_, ?_, ?_⟩
  · simp only [mulSkip, hk, hp, runningProduct, hm]
  · simp only [mulSkip, hk, flatMap_range_succ, ht, mulEntries, hbit]; simp
  · simp only [mulSkip, hn]

/-- A position whose bit is `'1'`, once the nested ADD has returned what the law of ADD gives (R145, R146). -/
theorem mulAccumulate_ok {w : MulWork} {i : Nat} (h : w.Ok) (hl : w.left = i + 1)
    (hbit : (val w.b).testBit (w.b.length - w.left) = true) :
    (mulAccumulate w i (toBits (w.ax.length + (w.b.length - w.left)) (val w.ax * 2 ^ (w.b.length - w.left)))
      (addLaw (w.ax.length + (w.b.length - w.left)) (val w.ax * (val w.b % 2 ^ (w.b.length - w.left)))
        (val w.ax * 2 ^ (w.b.length - w.left)))).Ok := by
  obtain ⟨hlb, hax, hva, hle, hp, ht, -⟩ := h
  have hk : w.b.length - i = w.b.length - w.left + 1 := by omega
  rw [nestedAdd_law hlb hax hva hbit]
  refine ⟨hlb, hax, hva, by simp [mulAccumulate]; omega, ?_, ?_, trivial⟩
  · simp only [mulAccumulate, hk]
  · simp only [mulAccumulate, hk, flatMap_range_succ, ht, mulEntries_true hbit]

/-- The operands of the nested ADD at a position with a set bit, and what it starts from (R145, R154). -/
theorem nested_operands {w : MulWork} {i : Nat} (h : w.Ok) (hl : w.left = i + 1) :
    partialProduct w.ax w.b i = toBits (w.ax.length + (w.b.length - w.left)) (val w.ax * 2 ^ (w.b.length - w.left)) ∧
    1 ≤ w.product.length ∧
    alignedLength w.product (partialProduct w.ax w.b i) = w.ax.length + (w.b.length - w.left) ∧
    val w.product = val w.ax * (val w.b % 2 ^ (w.b.length - w.left)) ∧
    val (partialProduct w.ax w.b i) = val w.ax * 2 ^ (w.b.length - w.left) := by
  obtain ⟨hlb, hax, hva, hle, hp, -⟩ := h
  have hpp := partialProduct_eq w.ax w.b i (w.b.length - w.left) (by omega)
  have hlen := runningProduct_length_le (w := w.ax.length) (vb := val w.b) (k := w.b.length - w.left) (val w.ax) (by omega)
  refine ⟨hpp, hp ▸ runningProduct_ne_nil _ _ _ _ (by omega), ?_, hp ▸ val_runningProduct hlb hax hva, ?_⟩
  · rw [alignedLength, hpp, toBits_length, hp, max_eq_right hlen]
  · rw [partialProduct, val_append_zeros, show w.b.length - 1 - i = w.b.length - w.left by omega]

theorem mulAt_ok {w : MulWork} {i : Nat} (h : w.Ok) (hn : w.nested = none) (hl : w.left = i + 1) : (mulAt w i).Ok := by
  have hb := mul_bit h hl
  unfold mulAt
  split
  · rename_i hbit
    obtain ⟨hpp, hpos, hal, hv1, hv2⟩ := nested_operands h hl
    rw [add_eq hpos, hal, hv1, hv2, hpp]
    exact mulAccumulate_ok h hl (hb ▸ hbit)
  · rename_i hbit
    exact mulSkip_ok h hl hn (by rw [← hb]; simpa using hbit)

theorem mulPosition_ok {w : MulWork} (h : w.Ok) (hn : w.nested = none) :
    (mulPosition w).Ok ∧ (mulPosition w).nested = none ∧ (mulPosition w).ax = w.ax ∧ (mulPosition w).b = w.b ∧
      (mulPosition w).left = w.left - 1 := by
  unfold mulPosition
  split
  · exact ⟨h, hn, rfl, rfl, by omega⟩
  · rename_i i hl
    refine ⟨mulAt_ok h hn hl, ?_, ?_, ?_, ?_⟩ <;> unfold mulAt <;> split <;> simp [mulAccumulate, mulSkip, hn, hl]

theorem mulPositions_spec (k : Nat) (w : MulWork) (h : w.Ok) (hn : w.nested = none) :
    (mulPositions k w).Ok ∧ (mulPositions k w).ax = w.ax ∧ (mulPositions k w).b = w.b ∧
      (mulPositions k w).left = w.left - k := by
  induction k generalizing w with
  | zero => exact ⟨h, rfl, rfl, rfl⟩
  | succ k ih =>
    obtain ⟨h1, h2, h3, h4, h5⟩ := mulPosition_ok h hn
    obtain ⟨i1, i2, i3, i4⟩ := ih _ h1 h2
    exact ⟨i1, i2.trans h3, i3.trans h4, by simp only [mulPositions, i4, h5]; omega⟩

/-- The end of a MUL: with no position left, the result and the trace are those of the laws (R148, R152, R165). -/
theorem mulFinish_eq {w : MulWork} (h : w.Ok) (hl : w.left = 0) :
    mulFinish w = { result := shortest (val w.ax * val w.b),
                    trace := (List.range w.b.length).flatMap (mulEntries w.ax.length (val w.ax) (val w.b)) } := by
  obtain ⟨hlb, hax, hva, hle, hp, ht, -⟩ := h
  simp only [hl, Nat.sub_zero] at hp ht
  have hne : w.product ≠ [] := by
    rw [hp]; exact List.ne_nil_of_length_pos (runningProduct_ne_nil _ _ _ _ (by omega))
  rw [mulFinish, strip_eq_shortest hne, hp, val_runningProduct hlb hax hva, Nat.mod_eq_of_lt (val_lt _), ht]

/-- `mul` is the law of MUL. -/
theorem mul_eq {a b : Bitstring} (ha : 1 ≤ a.length) (hb : 1 ≤ b.length) :
    mul a b = mulLaw a.length b.length (val a) (val b) := by
  obtain ⟨h1, h2, h3, h4⟩ := mulPositions_spec b.length _ (mulStart_ok ha hb) rfl
  rw [mul, mulFinish_eq h1 (by rw [h4]; simp [mulStart]), h2, h3]
  simp [mulStart, extendMultiplicand, mulLaw, Nat.add_comm]

end Sys2Proof.Machine
end

