-- ==== Sys2Proof/Laws/Run.lean ====
section
/-!
SUPPORT. What a step can do, said once, and how steps compose.
-/

namespace Sys2Proof.Machine

/-- `runSteps` is the host's run of this machine. -/
theorem core_run_eq_runSteps (k : Nat) (s : State) : Host.Core.run Sys2Proof.core k s = runSteps k s := by
  induction k generalizing s with
  | zero => rfl
  | succ k ih =>
    simp only [Host.Core.run, runSteps]
    cases h : step s with
    | next t => rw [show Sys2Proof.core.step s = .next t from h]; exact ih t
    | fault f => exact nomatch f
    | refused r => rw [show Sys2Proof.core.step s = .refused r from h]; rfl

theorem runSteps_succ {k : Nat} {s t : State} (h : step s = .next t) : runSteps (k + 1) s = runSteps k t := by
  simp only [runSteps, h]

/-- A run that answers a next state goes on from there. -/
theorem runSteps_add {j k : Nat} {s t : State} (h : runSteps j s = .next t) : runSteps (j + k) s = runSteps k t := by
  induction j generalizing s with
  | zero => simp only [runSteps, Host.Outcome.next.injEq] at h; rw [h, Nat.zero_add]
  | succ j ih =>
    rw [Nat.add_right_comm]
    simp only [runSteps] at h ⊢
    split at h
    · exact ih h
    · cases h
    · cases h

/-- What `exec` can do: deliver one thing or refuse, and which of the two, and what, depends on the instruction and `W_MAX` alone. -/
theorem exec_cases (i : Instr) (s : State) :
    (∃ d, ∀ t : State, t.cfg.wMax = s.cfg.wMax → exec i t = .next (t.deliver d)) ∨
    ∃ r, ∀ t : State, t.cfg.wMax = s.cfg.wMax → exec i t = .refused r := by
  have request : ∀ (a b : Bitstring) (r : ArithmeticResult),
      (∃ d, ∀ t : State, t.cfg.wMax = s.cfg.wMax → respond a b r t = .next (t.deliver d)) ∨
      ∃ ref, ∀ t : State, t.cfg.wMax = s.cfg.wMax → respond a b r t = .refused ref := by
    intro a b r
    cases h : requestRefusal s.cfg a b with
    | none => exact .inl ⟨.response r, fun t ht => by simp only [respond, requestRefusal_congr ht, h]⟩
    | some ref => exact .inr ⟨ref, fun t ht => by simp only [respond, requestRefusal_congr ht, h]⟩
  cases i with
  | add a b => exact request a b (add a b)
  | sub a b => exact request a b (sub a b)
  | mul a b => exact request a b (mul a b)
  | pad a b =>
    cases h : (emptyRefusal .a a <|> emptyRefusal .b b) with
    | none => exact .inl ⟨_, fun t _ => by simp only [exec, execPad, h]; rfl⟩
    | some ref => exact .inr ⟨ref, fun t _ => by simp only [exec, execPad, h]⟩
  | addBit a b c => exact .inl ⟨_, fun _ _ => rfl⟩
  | subBit a b c => exact .inl ⟨_, fun _ _ => rfl⟩
  | and a b => exact .inl ⟨_, fun _ _ => rfl⟩
  | or a b => exact .inl ⟨_, fun _ _ => rfl⟩
  | xor a b => exact .inl ⟨_, fun _ _ => rfl⟩
  | not a => exact .inl ⟨_, fun _ _ => rfl⟩

/-- What `serve` can do: what `exec` can, or start an operation, depending on the instruction and the parameters alone. -/
theorem serve_cases (i : Instr) (s : State) :
    (∃ d, ∀ t : State, t.cfg = s.cfg → serve i t = .next (t.deliver d)) ∨
    (∃ r, ∀ t : State, t.cfg = s.cfg → serve i t = .refused r) ∨
    ∃ w, ∀ t : State, t.cfg = s.cfg → serve i t = .next (t.setWork (some w)) := by
  have whole : (∀ t : State, t.cfg = s.cfg → serve i t = exec i t) →
      (∃ d, ∀ t : State, t.cfg = s.cfg → serve i t = .next (t.deliver d)) ∨
      (∃ r, ∀ t : State, t.cfg = s.cfg → serve i t = .refused r) ∨
      ∃ w, ∀ t : State, t.cfg = s.cfg → serve i t = .next (t.setWork (some w)) := by
    intro h
    rcases exec_cases i s with ⟨d, hd⟩ | ⟨r, hr⟩
    · exact .inl ⟨d, fun t ht => (h t ht).trans (hd t (by rw [ht]))⟩
    · exact .inr (.inl ⟨r, fun t ht => (h t ht).trans (hr t (by rw [ht]))⟩)
  cases hg : s.cfg.granularity with
  | operation => exact whole fun t ht => by simp only [serve, ht, hg]
  | position =>
    cases hs : startWork i with
    | none => exact whole fun t ht => by simp only [serve, ht, hg, hs]
    | some p =>
      obtain ⟨a, b, w⟩ := p
      cases hr : requestRefusal s.cfg a b with
      | none => exact .inr (.inr ⟨w, fun t ht => by simp only [serve, ht, hg, hs, begin, hr]⟩)
      | some ref => exact .inr (.inl ⟨ref, fun t ht => by simp only [serve, ht, hg, hs, begin, hr]⟩)

/-- The operation in progress is moved on, whatever waits at the inputs. -/
theorem step_of_work {s : State} {w : Work} (h : s.work = some w) : step s = advance w s := by
  simp only [step, h]

/-- With no operation in progress the oldest input is decoded and served or turned away. -/
theorem step_of_input {s : State} {x : Input} {rest : List Input} (hw : s.work = none) (hi : s.inputs = x :: rest) :
    (∀ i, decode x = .ok i → step s = serve i { s with inputs := rest }) ∧
    (∀ e, decode x = .error e → step s = reject e { s with inputs := rest }) := by
  have hc : s.consume = { s with inputs := rest } := by simp only [State.consume, hi, List.tail_cons]
  constructor
  · intro i hd; simp only [step, hw, serveOldest, hi, hd, hc]
  · intro e hd; simp only [step, hw, serveOldest, hi, hd, hc]

/-- Every way a step can answer a next state. -/
theorem step_next_cases {s t : State} (h : step s = .next t) :
    (∃ w r, s.work = some w ∧ moveWork w = .inl r ∧ t = (s.setWork none).deliver (.response r)) ∨
    (∃ w w', s.work = some w ∧ moveWork w = .inr w' ∧ t = s.setWork (some w')) ∨
    (s.work = none ∧ s.inputs = [] ∧ t = s) ∨
    ∃ x rest, s.work = none ∧ s.inputs = x :: rest ∧
      ((∃ i, decode x = .ok i ∧ serve i { s with inputs := rest } = .next t) ∨
       ∃ o, decode x = .error (.invalidInput o) ∧ t = ({ s with inputs := rest } : State).deliver (.invalidInput o)) := by
  obtain ⟨w, hw⟩ | hw : (∃ w, s.work = some w) ∨ s.work = none := by cases s.work <;> simp
  · rw [step_of_work hw] at h
    rcases advance_cases w s with ⟨r, hm, ha⟩ | ⟨w', hm, ha⟩
    · rw [ha] at h; cases h; exact .inl ⟨w, r, hw, hm, rfl⟩
    · rw [ha] at h; cases h; exact .inr (.inl ⟨w, w', hw, hm, rfl⟩)
  · obtain hi | ⟨x, rest, hi⟩ : s.inputs = [] ∨ ∃ x rest, s.inputs = x :: rest := by cases s.inputs <;> simp
    · simp only [step, hw, serveOldest, hi] at h
      cases h; exact .inr (.inr (.inl ⟨hw, hi, rfl⟩))
    · obtain ⟨hok, herr⟩ := step_of_input hw hi
      refine .inr (.inr (.inr ⟨x, rest, hw, hi, ?_⟩))
      cases hd : decode x with
      | ok i => exact .inl ⟨i, rfl, by rw [← hok i hd, h]⟩
      | error e =>
        rw [herr e hd] at h
        rcases reject_cases e { s with inputs := rest } with ⟨o, rfl, hr⟩ | ⟨ref, hr⟩
        · rw [hr] at h; cases h; exact .inr ⟨o, rfl, rfl⟩
        · rw [hr] at h; cases h

end Sys2Proof.Machine
end

