-- ==== Sys2Proof/Tests/Slice0.lean ====
section
/-!
SUPPORT. The author's own tests: well-formedness refused, words written out from the spec's encodings, examples of
95_test_vectors.md, and for each statement with hypotheses a state and operands that meet them.
-/

namespace Sys2Proof.Tests

open Sys2Proof Sys2Proof.Machine

/-- `'0'` and `'1'` as bits, so that a Bitstring reads as it does in the spec. -/
abbrev o : Bit := false
abbrev l : Bit := true

/-- An idle machine with these inputs, a step being a whole operation. -/
def whole (xs : List Input) : State := { State.reset with inputs := xs }

/-- An idle machine with these inputs, a step being one position. -/
def stepwise (xs : List Input) : State :=
  { State.reset with cfg := { wMax := none, granularity := .position }, inputs := xs }

/-- A machine that accepts operands of length at most 2. -/
def narrow (xs : List Input) : State :=
  { State.reset with cfg := { wMax := some 2, granularity := .operation }, inputs := xs }

/-! ## WellFormed refuses -/

theorem test_wellFormed_empty_a : (Instr.add [] [l]).wellFormed Config.standard = false := by decide
theorem test_wellFormed_empty_b : (Instr.mul [l] []).wellFormed Config.standard = false := by decide
theorem test_wellFormed_too_long : (Instr.sub [l, l, l] [l]).wellFormed (narrow []).cfg = false := by decide
theorem test_wellFormed_pad_empty : (Instr.pad [l] []).wellFormed Config.standard = false := by decide
theorem test_wellFormed_pad_ignores_limit : (Instr.pad [l, l, l] [l]).wellFormed (narrow []).cfg = true := by decide
theorem test_wellFormed_at_limit : (Instr.sub [l, l] [o, l]).wellFormed (narrow []).cfg = true := by decide

/-! ## Decoding: words written out from R56, R57, R58, R70 -/

theorem test_decode_add : decode (.port [.op 0b00#2, .len 2, .bit l, .bit l, .len 1, .bit o]) = .ok (.add [l, l] [o]) := by decide
theorem test_decode_sub : decode (.port [.op 0b01#2, .len 2, .bit l, .bit o, .len 1, .bit l]) = .ok (.sub [l, o] [l]) := by decide
theorem test_decode_mul : decode (.port [.op 0b10#2, .len 1, .bit l, .len 2, .bit o, .bit l]) = .ok (.mul [l] [o, l]) := by decide
theorem test_decode_pad : decode (.pins .pad [.len 1, .bit l, .len 2, .bit o, .bit l]) = .ok (.pad [l] [o, l]) := by decide
theorem test_decode_addBit : decode (.pins .addBit [.bit l, .bit o, .bit l]) = .ok (.addBit l o l) := by decide
theorem test_decode_subBit : decode (.pins .subBit [.bit o, .bit l, .bit l]) = .ok (.subBit o l l) := by decide
theorem test_decode_and : decode (.pins .and [.bit l, .bit o]) = .ok (.and l o) := by decide
theorem test_decode_or : decode (.pins .or [.bit l, .bit o]) = .ok (.or l o) := by decide
theorem test_decode_xor : decode (.pins .xor [.bit l, .bit o]) = .ok (.xor l o) := by decide
theorem test_decode_not : decode (.pins .not [.bit l]) = .ok (.not l) := by decide
theorem test_decode_text : decode (.text 0b10#2 ['1', '0'] ['1', '1']) = .ok (.mul [l, o] [l, l]) := by decide
theorem test_decode_reserved : decode (.port [.op 0b11#2, .len 1, .bit l, .len 1, .bit l]) = .error .reservedOp := by decide
theorem test_decode_short_frame : decode (.port [.op 0b00#2, .len 2, .bit l, .len 1, .bit l]) = .error .malformedFrame := by decide
theorem test_decode_long_frame :
    decode (.port [.op 0b00#2, .len 1, .bit l, .len 1, .bit l, .bit l]) = .error .malformedFrame := by decide
theorem test_decode_empty_operand :
    decode (.port [.op 0b00#2, .len 1, .bit l, .len 0]) = .error (.emptyOperand .b) := by decide
theorem test_decode_short_vector : decode (.pins .addBit [.bit l, .bit o]) = .error (.malformedPins .addBit) := by decide

/-! ## V-GUARD -/

theorem test_guard_second_digit : decode (.text 0b00#2 ['1', '2'] ['0', '1']) = .error (.invalidInput .a) := by decide
theorem test_guard_b : decode (.text 0b01#2 ['1', '0'] ['1', 'x']) = .error (.invalidInput .b) := by decide
theorem test_guard_both : decode (.text 0b10#2 ['a'] ['b']) = .error (.invalidInput .a) := by decide
theorem test_guard_empty : decode (.text 0b00#2 [] ['1']) = .error (.invalidInput .a) := by decide
theorem test_guard_before_reserved : decode (.text 0b11#2 ['1'] [' ', '1']) = .error (.invalidInput .b) := by decide

/-! ## Words of the opcode table, fetched and run as the first instruction after reset -/

theorem test_table_words :
    [decodeTableWord 8 0b00, decodeTableWord 8 0b01, decodeTableWord 8 0b10, decodeTableWord 8 0b11, decodeTableWord 8 0b100] =
      [some (.add [o] [o]), some (.sub [o] [o]), some (.mul [o] [o]), none, none] := by decide
theorem test_fetchWord_runs_sub :
    step (State.reset.withFetchWord 8 0b01) =
      .next { State.reset with outputs := [.response { result := [o, o], trace := [.fsStep o o o o o] }] } := by rfl
theorem test_fetchWord_runs_over_work :
    step ((stepwise []).setWork (some (.add (addStart [l] [l])) ) |>.withFetchWord 8 0b00) =
      .next { State.reset with outputs := [.response { result := [o], trace := [.faStep o o o o o] }] } := by rfl

/-! ## ADD: S1, and the carry into a padded position of V-ADD -/

theorem test_add_source : exec (.add [l, l] [o, l]) State.reset =
    .next (State.reset.deliver (.response
      { result := [l, o, o], trace := [.faStep l l o o l, .faStep l o l o l, .finalCarry l] })) := by rfl
theorem test_add_padded_carry : exec (.add [o, l] [l]) State.reset =
    .next (State.reset.deliver (.response
      { result := [l, o], trace := [.faStep l l o o l, .faStep o o l l o] })) := by rfl

/-! ## SUB: S2, and the borrow through every position of V-SUB -/

theorem test_sub_source_negative : exec (.sub [o, l] [l, l]) State.reset =
    .next (State.reset.deliver (.response
      { result := [l, l, o], trace := [.fsStep l l o o o, .fsStep o l o l l] })) := by rfl
theorem test_sub_borrow_ripples : exec (.sub [l, o, o, o] [o, o, o, l]) State.reset =
    .next (State.reset.deliver (.response
      { result := [o, l, l, l],
        trace := [.fsStep o l o l l, .fsStep o o l l l, .fsStep o o l l l, .fsStep l o l o o] })) := by rfl

/-! ## MUL: "101" times "10" of V-MUL, and S5 -/

theorem test_mul_skip_then_partial : exec (.mul [l, o, l] [l, o]) State.reset =
    .next (State.reset.deliver (.response
      { result := [l, o, l, o],
        trace := [.skip [o, o, o, o, o], .partialProduct [o, o, l, o, l, o] [o, o, l, o, l, o],
          .faStep o o o o o, .faStep o l o l o, .faStep o o o o o, .faStep o l o l o, .faStep o o o o o,
          .faStep o o o o o] })) := by rfl
theorem test_mul_zero_multiplicand : mul [o, o] [l, l] =
    { result := [o],
      trace := .partialProduct [o, o, o, o] [o, o, o, o] :: List.replicate 4 (.faStep o o o o o) ++
        .partialProduct [o, o, o, o, o] [o, o, o, o, o] :: List.replicate 5 (.faStep o o o o o) } := by decide

/-! ## PAD, V-PAD -/

theorem test_pad_second : exec (.pad [o, l, l, o] [l]) State.reset =
    .next (State.reset.deliver (.aligned [o, l, l, o] [o, o, o, l])) := by rfl
theorem test_pad_keeps_zeros : exec (.pad [o, o, l] [l]) State.reset =
    .next (State.reset.deliver (.aligned [o, o, l] [o, o, l])) := by rfl

/-! ## The cells: the printed tables, rows in the order 000 to 111 -/

theorem test_addBit_table :
    [addBit o o o, addBit o o l, addBit o l o, addBit o l l, addBit l o o, addBit l o l, addBit l l o, addBit l l l] =
      [(o, o), (l, o), (l, o), (o, l), (l, o), (o, l), (o, l), (l, l)] := by decide
theorem test_subBit_table :
    [subBit o o o, subBit o o l, subBit o l o, subBit o l l, subBit l o o, subBit l o l, subBit l l o, subBit l l l] =
      [(o, o), (l, l), (l, l), (o, l), (l, o), (o, o), (o, o), (l, l)] := by decide
theorem test_and_table : [gateAnd o o, gateAnd o l, gateAnd l o, gateAnd l l] = [o, o, o, l] := by decide
theorem test_or_table : [gateOr o o, gateOr o l, gateOr l o, gateOr l l] = [o, l, l, l] := by decide
theorem test_xor_table : [gateXor o o, gateXor o l, gateXor l o, gateXor l l] = [o, l, l, o] := by decide
theorem test_not_table : [gateNot o, gateNot l] = [l, o] := by decide

/-! ## `strip`, the examples of R13 -/

theorem test_strip : [strip [o, o, l, o], strip [o, o, o], strip [l]] = [[l, o], [o], [l]] := by decide

/-! ## One position at a time -/

theorem test_position_holds_work : step (stepwise [.port [.op 0b00#2, .len 1, .bit l, .len 1, .bit l]]) =
    .next ((stepwise []).setWork (some (.add
      { a' := [l], b' := [l], carry := o, acc := [], left := 1, trace := [] }))) := by rfl
theorem test_position_moves_work : step ((stepwise []).setWork (some (.add
      { a' := [l], b' := [l], carry := o, acc := [], left := 1, trace := [] }))) =
    .next ((stepwise []).setWork (some (.add
      { a' := [l], b' := [l], carry := l, acc := [o], left := 0, trace := [.faStep l l o o l] }))) := by rfl

/-! ## Witnesses: for each statement with hypotheses, a state and operands that meet all of them -/

/-- A well-formed instruction of each kind. -/
theorem witness_DecodeOfEncodeIsTheInstruction :
    (Instr.mul [l] [o, l]).wellFormed Config.standard = true ∧ (Instr.pad [l] [o, l]).wellFormed (narrow []).cfg = true ∧
    (Instr.not l).wellFormed Config.standard = true := by decide

theorem witness_TextCallIsTheRequestItNames : 1 ≤ ([l] : Bitstring).length ∧ 1 ≤ ([o, l] : Bitstring).length := by decide

theorem witness_DecodedInputIsAnEncoding :
    decode (.text 0b00#2 ['1'] ['1']) = .ok (.add [l] [l]) ∧ decode (encode (.xor l o)) = .ok (.xor l o) := by decide

theorem witness_HostReachesOnlyThreeOperations :
    (∀ u v, Input.text 0b00#2 ['1'] ['1'] ≠ .pins u v) ∧ decode (.text 0b00#2 ['1'] ['1']) = .ok (.add [l] [l]) :=
  ⟨by simp, by decide⟩

theorem witness_ReservedOperationIsRefused :
    1 ≤ ([l] : Bitstring).length ∧ (whole [encodeText 0b11#2 [l] [l]]).work = none ∧
    (whole [encodeText 0b11#2 [l] [l]]).inputs = encodeText 0b11#2 [l] [l] :: [] ∧
    (whole [.port (requestFrame 0b11#2 [l] [l])]).inputs = .port (requestFrame 0b11#2 [l] [l]) :: [] := by decide

theorem witness_TraceEntryFieldsDetermineIt :
    (TraceEntry.partialProduct [o, l] [l]).code = (TraceEntry.partialProduct [o, l] [l]).code ∧
    (TraceEntry.partialProduct [o, l] [l]).fields = (TraceEntry.partialProduct [o, l] [l]).fields := by decide

/-- Each way a text can be malformed, for each operand. -/
theorem witness_MalformedTextRaisesInvalidInput :
    (whole [.text 0b00#2 [] ['1']]).work = none ∧
    (whole [.text 0b00#2 [] ['1']]).inputs = .text 0b00#2 [] ['1'] :: [] ∧
    (∃ c ∈ ['1', '2'], c ≠ '0' ∧ c ≠ '1') ∧
    (['1', '0'] ≠ [] ∧ ∀ c ∈ ['1', '0'], c = '0' ∨ c = '1') ∧ (∃ c ∈ ['x'], c ≠ '0' ∧ c ≠ '1') :=
  ⟨rfl, rfl, by simp, by simp, by simp⟩

theorem witness_PadLeftPadsTheShorterOperand : 1 ≤ ([l] : Bitstring).length ∧ 1 ≤ ([o, l, l, o] : Bitstring).length := by decide

theorem witness_PadKeepsValuesAndIsIdempotent : 1 ≤ ([o, o, l] : Bitstring).length ∧ 1 ≤ ([l] : Bitstring).length := by decide

/-- The hypothesis of every statement about ADD: without a limit, and with operands exactly at the limit. -/
theorem witness_add_wellFormed :
    (Instr.add [l, l] [o, l]).wellFormed State.reset.cfg = true ∧ (Instr.add [l, l] [o]).wellFormed (narrow []).cfg = true := by
  decide

theorem witness_AddDeliversItsLaw : (Instr.add [l] [o, l, l, o]).wellFormed State.reset.cfg = true := by decide
theorem witness_AddResultIsTheExactSum : (Instr.add [l, l, l] [o, o, l]).wellFormed State.reset.cfg = true := by decide
/-- One pair with a final carry and one without. -/
theorem witness_AddCarriesAndResultLength :
    (Instr.add [l] [l]).wellFormed State.reset.cfg = true ∧ 2 ^ max 1 1 ≤ val [l] + val [l] ∧
    (Instr.add [o] [l]).wellFormed State.reset.cfg = true ∧ ¬ 2 ^ max 1 1 ≤ val [o] + val [l] := by decide
theorem witness_AddTraceLengthAndKinds :
    (Instr.add [l] [l]).wellFormed State.reset.cfg = true ∧ 0 < max ([l] : Bitstring).length ([l] : Bitstring).length := by decide
theorem witness_CarryAndBorrowAreThreaded :
    (Instr.add [l, l] [o, l]).wellFormed State.reset.cfg = true ∧
    0 + 1 < max ([l, l] : Bitstring).length ([o, l] : Bitstring).length := by decide
theorem witness_AddCommutesUpToTraceFields : (Instr.add [l, o] [l]).wellFormed State.reset.cfg = true := by decide

theorem witness_SubDeliversItsLaw : (Instr.sub [l] [o, l, l, o]).wellFormed State.reset.cfg = true := by decide
theorem witness_SubSignAndMagnitude :
    (Instr.sub [l, l] [l, l]).wellFormed State.reset.cfg = true ∧ val [l, l] ≤ val [l, l] := by decide
theorem witness_SubDigitsAreTheModularDifference :
    (Instr.sub [o, l] [l, o]).wellFormed State.reset.cfg = true ∧ val [o, l] < val [l, o] := by decide
theorem witness_FinalBorrowEqualsTheSign : (Instr.sub [o] [l]).wellFormed State.reset.cfg = true := by decide
theorem witness_SubTraceLengthAndKinds : (Instr.sub [o] [l, l]).wellFormed State.reset.cfg = true := by decide
theorem witness_SubOfEqualValuesIsZero :
    (Instr.sub [o, l] [l]).wellFormed State.reset.cfg = true ∧ val [o, l] = val [l] := by decide

theorem witness_MulDeliversItsLaw : (Instr.mul [l, o] [l, l]).wellFormed State.reset.cfg = true := by decide
theorem witness_MulResultIsTheExactProduct : (Instr.mul [o, l] [l, o, l]).wellFormed State.reset.cfg = true := by decide
theorem witness_MulNeverTakesTheFinalCarry : (Instr.mul [l, l] [l, l]).wellFormed State.reset.cfg = true := by decide
theorem witness_MulTraceLength : (Instr.mul [l, l] [l, o]).wellFormed State.reset.cfg = true := by decide
/-- A zero multiplier, and a zero multiplicand with a multiplier that is not zero. -/
theorem witness_MulOfZeroOperands :
    (Instr.mul [l, l] [o, o]).wellFormed State.reset.cfg = true ∧ val [o, o] = 0 ∧
    (Instr.mul [o, o] [l, l]).wellFormed State.reset.cfg = true := by decide
theorem witness_UnstrippedProductLength :
    (Instr.mul [l] [o, l]).wellFormed State.reset.cfg = true ∧ val [o, l] ≠ 0 ∧
    (Instr.mul [l] [o]).wellFormed State.reset.cfg = true ∧ val [o] = 0 := by decide

theorem witness_LeadingZerosKeepTheseResults :
    State.reset.cfg.wMax = none ∧ 1 ≤ ([l] : Bitstring).length ∧ val [o, l] ≤ val [l] := by decide

/-- Each clause, the last two at the limit. -/
theorem witness_IllFormedOperandIsNamed :
    Instr.mul [] [l] ∈ [Instr.add [] [l], .sub [] [l], .mul [] [l], .pad [] [l]] ∧
    Instr.pad [l] [] ∈ [Instr.add [l] [], .sub [l] [], .mul [l] [], .pad [l] []] ∧
    (narrow []).cfg.wMax = some 2 ∧ ([l, l, l] : Bitstring) ≠ [] ∧ 2 < ([l, l, l] : Bitstring).length ∧
    ([l, l] : Bitstring).length ≤ 2 := by decide

theorem witness_ExecOnlyDelivers : exec (.not o) State.reset = .next (State.reset.deliver (.bit l)) := by rfl

theorem witness_DeliveryDependsOnTheInstructionAlone :
    State.reset.cfg.wMax = ((stepwise [.pins .not [.bit o]]).deliver (.bit o)).cfg.wMax ∧
    exec (.add [l] [o]) State.reset =
      .next (State.reset.deliver (.response { result := [l], trace := [.faStep l o o l o] })) :=
  ⟨by decide, rfl⟩

theorem witness_StepDoesNotReadDeliveries :
    step (whole [.pins .not [.bit o]]) = .next ((whole []).deliver (.bit l)) ∧
    step (whole [.pins .not []]) = .refused (.malformedPins .not) := ⟨rfl, rfl⟩

theorem witness_StepKeepsParametersAndDeliveries :
    step (whole [.pins .not [.bit o]]) = .next ((whole []).deliver (.bit l)) := by rfl

/-- Each clause: a whole operation, a combinational unit one position at a time, an operation started, one refused. -/
theorem witness_StepRunsTheDecodedInstruction :
    (whole [encode (.add [l] [l])]).work = none ∧
    (whole [encode (.add [l] [l])]).inputs = encode (.add [l] [l]) :: [] ∧
    decode (encode (.add [l] [l])) = .ok (.add [l] [l]) ∧
    (whole [encode (.add [l] [l])]).cfg.granularity = .operation ∧
    operationCode (.and l o) = none ∧
    (stepwise [encode (.add [l] [l])]).cfg.granularity = .position := by decide
theorem witness_StepRunsTheDecodedInstruction_started :
    exec (.add [l] [o]) (stepwise []) =
      .next ((stepwise []).deliver (.response { result := [l], trace := [.faStep l o o l o] })) ∧
    exec (.add [l] [l, l, l]) { narrow [] with cfg := { wMax := some 2, granularity := .position } } =
      .refused (.operandTooLong .b) := ⟨rfl, rfl⟩

theorem witness_EveryGranularityServesTheSameResponse :
    (stepwise [encode (.mul [l] [l])]).work = none ∧
    (stepwise [encode (.mul [l] [l])]).inputs = encode (.mul [l] [l]) :: [] ∧
    decode (encode (.mul [l] [l])) = .ok (.mul [l] [l]) ∧
    (Instr.mul [l] [l]).wellFormed (stepwise []).cfg = true ∧ (Instr.mul [l] [l]).wellFormed (whole []).cfg = true := by decide

theorem witness_QueueIsServedInOrder :
    (stepwise ([Instr.sub [o] [l], .and l o].map encode)).work = none ∧
    (stepwise ([Instr.sub [o] [l], .and l o].map encode)).inputs = [Instr.sub [o] [l], .and l o].map encode ∧
    ∀ i ∈ [Instr.sub [o] [l], .and l o], i.wellFormed (stepwise []).cfg = true := by decide

theorem witness_StartedOperationDelivers :
    ((stepwise []).setWork (some (.mul (mulStart [l] [l])))).work = some (.mul (mulStart [l] [l])) := by rfl

/-- A state with an ADD in progress, one position done, and the step from it. -/
theorem witness_StepKeepsTheInvariant :
    ((stepwise []).setWork (some (.add (addAt (addStart [l, l] [o, l]) 1)))).Inv ∧
    step ((stepwise []).setWork (some (.add (addAt (addStart [l, l] [o, l]) 1)))) =
      .next ((stepwise []).setWork (some (.add (addAt (addAt (addStart [l, l] [o, l]) 1) 0)))) := by
  refine ⟨⟨?_, by simp [stepwise]⟩, rfl⟩
  intro w hw
  simp only [setWork_work, Option.some.injEq] at hw
  subst hw
  exact addAt_ok (addStart_ok (by decide)) rfl

theorem witness_ResetLeavesBcoreIdleAndEmpty : (whole [.pins .not [.bit o]]).work = none := by rfl

theorem witness_IdleWithoutInput : State.reset.work = none ∧ State.reset.inputs = [] := by decide

end Sys2Proof.Tests
end

section
/-!
PROOFS. Refusals, independence and reset: when an instruction is refused and under which name, what its delivery depends on,
what a reset leaves.
-/

namespace Sys2Proof.Machine

/-! ## The grounds of a refusal -/

@[simp] theorem emptyRefusal_nil (o : Operand) : emptyRefusal o [] = some (.emptyOperand o) := rfl

theorem emptyRefusal_of_ne_nil {s : Bitstring} (h : s ≠ []) (o : Operand) : emptyRefusal o s = none :=
  emptyRefusal_eq_none.2 (List.length_pos_iff.2 h)

theorem lengthRefusal_of_lt {c : Config} {m : Nat} {s : Bitstring} (hm : c.wMax = some m) (h : m < s.length) (o : Operand) :
    lengthRefusal c o s = some (.operandTooLong o) := by
  simp only [lengthRefusal, hm, h, if_true]

theorem lengthRefusal_of_le {c : Config} {m : Nat} {s : Bitstring} (hm : c.wMax = some m) (h : s.length ≤ m) (o : Operand) :
    lengthRefusal c o s = none := by
  simp only [lengthRefusal, hm, Nat.not_lt.2 h, if_false]

/-- A PAD is refused on no ground exactly when it is well formed (R67). -/
theorem padRefusal_eq_none {a b : Bitstring} :
    (emptyRefusal .a a <|> emptyRefusal .b b) = none ↔ (decide (1 ≤ a.length) && decide (1 ≤ b.length)) = true := by
  simp only [Option.orElse_eq_orElse, Option.orElse_eq_or, Option.or_eq_none_iff, emptyRefusal_eq_none, Bool.and_eq_true,
    decide_eq_true_eq]

/-- Between non-empty operands only excess length is a ground to refuse a request. -/
theorem requestRefusal_of_ne_nil {a b : Bitstring} (ha : a ≠ []) (hb : b ≠ []) (c : Config) :
    requestRefusal c a b = (lengthRefusal c .a a <|> lengthRefusal c .b b) := by
  simp only [requestRefusal, emptyRefusal_of_ne_nil ha, emptyRefusal_of_ne_nil hb]
  rfl

/-- The ground on which a PAD is refused is also the first on which a request with its operands is. -/
theorem requestRefusal_of_padRefusal {a b : Bitstring} {r : Refusal}
    (h : (emptyRefusal .a a <|> emptyRefusal .b b) = some r) (c : Config) : requestRefusal c a b = some r := by
  simp only [Option.orElse_eq_orElse, Option.orElse_eq_or] at h
  simp only [requestRefusal, Option.orElse_eq_orElse, Option.orElse_eq_or, ← Option.or_assoc, h, Option.some_or]

/-! ## What is refused, and under which name -/

/-- ADD, SUB and MUL stop at the first ground to refuse a request. -/
theorem exec_refused_of_requestRefusal {a b : Bitstring} {s : State} {r : Refusal} (h : requestRefusal s.cfg a b = some r) :
    ∀ i ∈ [Instr.add a b, .sub a b, .mul a b], exec i s = .refused r := by
  simp [exec, execAdd, execSub, execMul, respond, h]

/-- PAD stops at the first empty operand, and so do ADD, SUB and MUL. -/
theorem exec_refused_of_padRefusal {a b : Bitstring} {s : State} {r : Refusal}
    (h : (emptyRefusal .a a <|> emptyRefusal .b b) = some r) :
    ∀ i ∈ [Instr.add a b, .sub a b, .mul a b, .pad a b], exec i s = .refused r := by
  have requests := exec_refused_of_requestRefusal (s := s) (requestRefusal_of_padRefusal h s.cfg)
  have pad : exec (.pad a b) s = .refused r := by simp only [exec, execPad, h]
  simpa [pad] using requests

/-- `exec` delivers one thing for a well-formed instruction and refuses an ill-formed one. -/
theorem exec_wellFormed_cases (i : Instr) (s : State) :
    (i.wellFormed s.cfg = true ∧ ∃ d, exec i s = .next (s.deliver d)) ∨
    (i.wellFormed s.cfg = false ∧ ∃ r, exec i s = .refused r) := by
  have request : ∀ (a b : Bitstring) (r : ArithmeticResult),
      ((requestOperandOk s.cfg a && requestOperandOk s.cfg b) = true ∧ ∃ d, respond a b r s = .next (s.deliver d)) ∨
      ((requestOperandOk s.cfg a && requestOperandOk s.cfg b) = false ∧ ∃ ref, respond a b r s = .refused ref) := by
    intro a b r
    rcases respond_cases a b r s with ⟨ok, h⟩ | ⟨bad, ref, -, h⟩
    · exact .inl ⟨ok, _, h⟩
    · exact .inr ⟨bad, ref, h⟩
  cases i with
  | add a b => exact request a b (add a b)
  | sub a b => exact request a b (sub a b)
  | mul a b => exact request a b (mul a b)
  | pad a b =>
    cases h : (emptyRefusal .a a <|> emptyRefusal .b b) with
    | none => exact .inl ⟨padRefusal_eq_none.1 h, _, by simp only [exec, execPad, h]; rfl⟩
    | some r =>
      have bad : ¬ (decide (1 ≤ a.length) && decide (1 ≤ b.length)) = true := by
        rw [← padRefusal_eq_none, h]
        exact Option.some_ne_none r
      exact .inr ⟨Bool.eq_false_iff.2 bad, r, by simp only [exec, execPad, h]⟩
  | addBit a b c => exact .inl ⟨rfl, _, rfl⟩
  | subBit a b c => exact .inl ⟨rfl, _, rfl⟩
  | and a b => exact .inl ⟨rfl, _, rfl⟩
  | or a b => exact .inl ⟨rfl, _, rfl⟩
  | xor a b => exact .inl ⟨rfl, _, rfl⟩
  | not a => exact .inl ⟨rfl, _, rfl⟩

/-- Settles O36: both sides are decided by `exec_wellFormed_cases`. -/
theorem refusedExactlyWhenIllFormed : Obligations.RefusedExactlyWhenIllFormed := by
  intro i s
  refine ⟨?_, fun f => nomatch f⟩
  rcases exec_wellFormed_cases i s with ⟨ok, d, h⟩ | ⟨bad, r, h⟩
  · simp [ok, h]
  · simp [bad, h]

/-- Settles O37: each clause names the first ground that applies, in the order in which `requestRefusal` asks for them. -/
theorem illFormedOperandIsNamed : Obligations.IllFormedOperandIsNamed := by
  intro a b s
  refine ⟨?_, ?_, ?_, ?_⟩
  · rintro rfl
    exact exec_refused_of_padRefusal rfl
  · rintro ha rfl
    exact exec_refused_of_padRefusal (by rw [emptyRefusal_of_ne_nil ha]; rfl)
  · intro m hm ha hb hlong
    apply exec_refused_of_requestRefusal
    rw [requestRefusal_of_ne_nil ha hb, lengthRefusal_of_lt hm hlong]
    rfl
  · intro m hm ha hb hfits hlong
    apply exec_refused_of_requestRefusal
    rw [requestRefusal_of_ne_nil ha hb, lengthRefusal_of_le hm hfits, lengthRefusal_of_lt hm hlong]
    rfl

/-! ## Independence and reset -/

/-- Settles O39: the delivery that `exec_cases` gives is one for all states with the same `W_MAX`. -/
theorem deliveryDependsOnTheInstructionAlone : Obligations.DeliveryDependsOnTheInstructionAlone := by
  intro i s s' t hmax ht
  rcases exec_cases i s with ⟨d, hd⟩ | ⟨r, hr⟩
  · rw [hd s rfl] at ht
    cases ht
    exact ⟨d, rfl, hd s' hmax.symm⟩
  · rw [hr s rfl] at ht
    cases ht

/-- Settles O48: a platform reset replaces the working values by none, which between operations they are already. -/
theorem resetLeavesBcoreIdleAndEmpty : Obligations.ResetLeavesBcoreIdleAndEmpty :=
  ⟨reset_work, reset_inputs, reset_outputs, rfl, fun s =>
    ⟨setWork_work s none, setWork_outputs s none, setWork_inputs s none, setWork_cfg s none, setWork_none_of_idle⟩⟩

end Sys2Proof.Machine
end

section
/-!
PROOFS. The state: what a step changes and leaves unchanged, a queue of requests served from the first to the last, the
invariant of the working values and the deliveries.
-/

namespace Sys2Proof.Machine

/-! ## Frames -/

/-- Settles O38: `exec_cases` leaves a delivery or a refusal. -/
theorem execOnlyDelivers : Obligations.ExecOnlyDelivers := by
  intro i s t ht
  rcases exec_cases i s with ⟨d, hd⟩ | ⟨r, hr⟩
  · rw [hd s rfl] at ht
    cases ht
    exact ⟨d, rfl, rfl, rfl, rfl⟩
  · rw [hr s rfl] at ht
    cases ht

/-- Settles O41: each way of `step_next_cases`, and within it of `serve_cases`, changes only what the statement allows. -/
theorem stepKeepsParametersAndDeliveries : Obligations.StepKeepsParametersAndDeliveries := by
  intro s t ht
  rcases step_next_cases ht with
    ⟨w, r, -, -, rfl⟩ | ⟨w, w', -, -, rfl⟩ | ⟨-, -, rfl⟩ | ⟨x, rest, hw, hi, ⟨i, -, hserve⟩ | ⟨o, -, rfl⟩⟩
  · exact ⟨rfl, .inr ⟨_, rfl⟩, .inl rfl⟩
  · exact ⟨rfl, .inl rfl, .inl rfl⟩
  · exact ⟨rfl, .inl rfl, .inl rfl⟩
  · rcases serve_cases i { s with inputs := rest } with ⟨d, hd⟩ | ⟨r, hr⟩ | ⟨w, hstart⟩
    · rw [hd _ rfl] at hserve
      cases hserve
      exact ⟨rfl, .inr ⟨d, rfl⟩, .inr ⟨hw, x, hi⟩⟩
    · rw [hr _ rfl] at hserve
      cases hserve
    · rw [hstart _ rfl] at hserve
      cases hserve
      exact ⟨rfl, .inl rfl, .inr ⟨hw, x, hi⟩⟩
  · exact ⟨rfl, .inr ⟨_, rfl⟩, .inr ⟨hw, x, hi⟩⟩

/-- With nothing at the inputs and no operation in progress a step leaves the state as it is. -/
theorem step_of_no_input {s : State} (hw : s.work = none) (hi : s.inputs = []) : step s = .next s := by
  simp only [step, hw, serveOldest, hi]

/-- The state with deliveries put before its own. -/
def State.prepend (ds : List Delivery) (s : State) : State := { s with outputs := ds ++ s.outputs }

theorem prepend_deliver (ds : List Delivery) (s : State) (d : Delivery) :
    (s.prepend ds).deliver d = (s.deliver d).prepend ds := by
  simp only [State.prepend, State.deliver, List.append_assoc]

/-- A step from a state with deliveries put before its own is the same step, or the same refusal. -/
theorem step_prepend_cases (ds : List Delivery) (s : State) :
    (∃ t, step s = .next t ∧ step (s.prepend ds) = .next (t.prepend ds)) ∨
    ∃ r, step s = .refused r ∧ step (s.prepend ds) = .refused r := by
  obtain ⟨w, hw⟩ | hw : (∃ w, s.work = some w) ∨ s.work = none := by cases s.work <;> simp
  · rw [step_of_work hw, step_of_work (s := s.prepend ds) hw]
    rcases advance_cases w s with ⟨r, hm, h⟩ | ⟨w', hm, h⟩
    · exact .inl ⟨_, h, by rw [← prepend_deliver]; simp only [advance, hm]; rfl⟩
    · exact .inl ⟨_, h, by simp only [advance, hm]; rfl⟩
  · obtain hi | ⟨x, rest, hi⟩ : s.inputs = [] ∨ ∃ x rest, s.inputs = x :: rest := by cases s.inputs <;> simp
    · exact .inl ⟨s, step_of_no_input hw hi, step_of_no_input (s := s.prepend ds) hw hi⟩
    · obtain ⟨hok, herr⟩ := step_of_input hw hi
      obtain ⟨hok', herr'⟩ := step_of_input (s := s.prepend ds) hw hi
      cases hd : decode x with
      | ok i =>
        rw [hok i hd, hok' i hd]
        rcases serve_cases i { s with inputs := rest } with ⟨d, h⟩ | ⟨r, h⟩ | ⟨w, h⟩
        · exact .inl ⟨_, h _ rfl, by rw [← prepend_deliver]; exact h _ rfl⟩
        · exact .inr ⟨r, h _ rfl, h _ rfl⟩
        · exact .inl ⟨_, h _ rfl, h _ rfl⟩
      | error e =>
        rw [herr e hd, herr' e hd]
        rcases reject_cases e { s with inputs := rest } with ⟨o, rfl, h⟩ | ⟨r, h⟩
        · exact .inl ⟨_, h, by rw [← prepend_deliver]; rfl⟩
        · exact .inr ⟨r, h _, h _⟩

/-- Settles O40 by `step_prepend_cases`. -/
theorem stepDoesNotReadDeliveries : Obligations.StepDoesNotReadDeliveries := by
  intro s ds
  rcases step_prepend_cases ds s with ⟨t, hs, hp⟩ | ⟨r, hs, hp⟩
  · rw [hs]
    exact ⟨fun _ h => by cases h; exact hp, nofun⟩
  · rw [hs]
    exact ⟨nofun, fun _ h => by cases h; exact hp⟩

/-! ## What is delivered, by the laws -/

theorem requestOperands_pos {c : Config} {a b : Bitstring}
    (h : (requestOperandOk c a && requestOperandOk c b) = true) : 1 ≤ a.length ∧ 1 ≤ b.length := by
  simp only [requestOperandOk, Bool.and_eq_true, decide_eq_true_eq] at h
  obtain ⟨⟨ha, -⟩, hb, -⟩ := h
  exact ⟨ha, hb⟩

theorem lawDelivery_add {a b : Bitstring} (ha : 1 ≤ a.length) : lawDelivery (.add a b) = .response (add a b) := by
  rw [add_eq ha]; rfl

theorem lawDelivery_sub {a b : Bitstring} (ha : 1 ≤ a.length) : lawDelivery (.sub a b) = .response (sub a b) := by
  rw [sub_eq ha]; rfl

theorem lawDelivery_mul {a b : Bitstring} (ha : 1 ≤ a.length) (hb : 1 ≤ b.length) :
    lawDelivery (.mul a b) = .response (mul a b) := by
  rw [mul_eq ha hb]; rfl

/-- A well-formed instruction, run whole, delivers what the laws say of it. -/
theorem exec_eq_lawDelivery {i : Instr} {s : State} (h : i.wellFormed s.cfg = true) :
    exec i s = .next (s.deliver (lawDelivery i)) := by
  cases i with
  | add a b =>
    obtain ⟨ha, -⟩ := requestOperands_pos h
    exact (respond_of_ok h).trans (by rw [lawDelivery_add ha])
  | sub a b =>
    obtain ⟨ha, -⟩ := requestOperands_pos h
    exact (respond_of_ok h).trans (by rw [lawDelivery_sub ha])
  | mul a b =>
    obtain ⟨ha, hb⟩ := requestOperands_pos h
    exact (respond_of_ok h).trans (by rw [lawDelivery_mul ha hb])
  | pad a b => simp only [exec, execPad, padRefusal_eq_none.2 h, output, align_eq]; rfl
  | addBit a b c => simp only [exec, execAddBit, output, addBit_eq_count, lawDelivery]
  | subBit a b c => simp only [exec, execSubBit, output, subBit_eq_count, lawDelivery]
  | and a b => cases a <;> cases b <;> rfl
  | or a b => cases a <;> cases b <;> rfl
  | xor a b => cases a <;> cases b <;> rfl
  | not a => cases a <;> rfl

/-! ## Serving an instruction -/

/-- Decoding the encoding of a well-formed instruction gives it back (R56, R57, R70). -/
theorem decode_encode {c : Config} {i : Instr} (h : i.wellFormed c = true) : decode (encode i) = .ok i := by
  have request : ∀ {a b : Bitstring} (code : BitVec 2), (requestOperandOk c a && requestOperandOk c b) = true →
      decode (.port (requestFrame code a b)) = selectOperation code a b := by
    intro a b code hab
    obtain ⟨ha, hb⟩ := requestOperands_pos hab
    simp only [decode, requestFrame, decodeRequest, decodeOperands_symbols ha hb]
  cases i with
  | add a b => exact request 0b00#2 h
  | sub a b => exact request 0b01#2 h
  | mul a b => exact request 0b10#2 h
  | pad a b =>
    simp only [Instr.wellFormed, Bool.and_eq_true, decide_eq_true_eq] at h
    obtain ⟨ha, hb⟩ := h
    simp only [encode, decode, decodePins, decodeOperands_symbols ha hb]
  | addBit a b c => rfl
  | subBit a b c => rfl
  | and a b => rfl
  | or a b => rfl
  | xor a b => rfl
  | not a => rfl

theorem startWork_wellFormed {i : Instr} {a b : Bitstring} {w : Work} (h : startWork i = some (a, b, w)) (c : Config) :
    i.wellFormed c = (requestOperandOk c a && requestOperandOk c b) := by
  cases i <;> cases h <;> rfl

/-- The units without working values are served in one step (R25). -/
theorem stepsPerPosition_of_startWork_none {i : Instr} (h : startWork i = none) : stepsPerPosition i = 1 := by
  cases i with
  | add a b => cases h
  | sub a b => cases h
  | mul a b => cases h
  | _ => rfl

/-- With the operation as one step, and always for a unit without working values, to serve is `exec`. -/
theorem serve_whole {i : Instr} {s : State} (h : s.cfg.granularity = .operation ∨ startWork i = none) :
    serve i s = exec i s := by
  rcases h with h | h
  · simp only [serve, h]
  · cases hg : s.cfg.granularity <;> simp only [serve, h, hg]

/-- With one position as one step, to serve an operation is to start it. -/
theorem serve_started {i : Instr} {s : State} {a b : Bitstring} {w : Work} (hg : s.cfg.granularity = .position)
    (h : startWork i = some (a, b, w)) : serve i s = begin a b w s := by
  simp only [serve, hg, h]

theorem begin_of_ok {a b : Bitstring} {w : Work} {s : State}
    (h : (requestOperandOk s.cfg a && requestOperandOk s.cfg b) = true) : begin a b w s = .next (s.setWork (some w)) := by
  simp only [begin, requestRefusal_eq_none.2 h]

/-! ## The moves of an operation in progress -/

@[simp] theorem setWork_setWork (s : State) (v w : Option Work) : (s.setWork v).setWork w = s.setWork w := rfl

theorem moveWork_add_zero {w : AddWork} (h : w.left = 0) : moveWork (.add w) = .inl (addFinish w) := by
  simp only [moveWork, h]

theorem moveWork_add_succ {w : AddWork} {i : Nat} (h : w.left = i + 1) :
    moveWork (.add w) = .inr (.add (addPosition w)) := by
  simp only [moveWork, h]

theorem moveWork_sub_zero {w : SubWork} (h : w.left = 0) : moveWork (.sub w) = .inl (subFinish w) := by
  simp only [moveWork, h]

theorem moveWork_sub_succ {w : SubWork} {i : Nat} (h : w.left = i + 1) :
    moveWork (.sub w) = .inr (.sub (subPosition w)) := by
  simp only [moveWork, h]

theorem moveWork_mul_nested {w : MulWork} {n : NestedAdd} (h : w.nested = some n) :
    moveWork (.mul w) = .inr (.mul (mulNestedMove w n)) := by
  simp only [moveWork, h]

theorem moveWork_mul_zero {w : MulWork} (hn : w.nested = none) (h : w.left = 0) :
    moveWork (.mul w) = .inl (mulFinish w) := by
  simp only [moveWork, hn, h]

theorem moveWork_mul_succ {w : MulWork} {i : Nat} (hn : w.nested = none) (h : w.left = i + 1) :
    moveWork (.mul w) = .inr (.mul (mulEnterPosition w i)) := by
  simp only [moveWork, hn, h]

theorem mulNestedMove_zero {w : MulWork} {n : NestedAdd} (h : n.work.left = 0) :
    mulNestedMove w n = mulAccumulate w (w.left - 1) n.pp (addFinish n.work) := by
  simp only [mulNestedMove, h]

theorem mulNestedMove_succ {w : MulWork} {n : NestedAdd} {i : Nat} (h : n.work.left = i + 1) :
    mulNestedMove w n = { w with nested := some { n with work := addPosition n.work } } := by
  simp only [mulNestedMove, h]

/-- A move that leaves working values is one step of a run. -/
theorem runSteps_move {w w' : Work} (h : moveWork w = .inr w') (k : Nat) (s : State) :
    runSteps (k + 1) (s.setWork (some w)) = runSteps k (s.setWork (some w')) :=
  runSteps_succ (by rw [step_of_work (setWork_work s _)]; simp only [advance, h, setWork_setWork])

/-- The move that completes an operation is one step, which delivers the response. -/
theorem runSteps_finish {w : Work} {r : ArithmeticResult} (h : moveWork w = .inl r) (s : State) :
    runSteps 1 (s.setWork (some w)) = .next ((s.setWork none).deliver (.response r)) :=
  runSteps_succ (by rw [step_of_work (setWork_work s _)]; simp only [advance, h, setWork_setWork])

/-! ## Position by position an operation does what it does whole -/

theorem runSteps_add_work {k : Nat} {w : AddWork} (hl : w.left = k) (s : State) :
    runSteps (k + 1) (s.setWork (some (.add w))) =
      .next ((s.setWork none).deliver (.response (addFinish (addPositions k w)))) := by
  induction k generalizing w with
  | zero => exact runSteps_finish (moveWork_add_zero hl) s
  | succ k ih =>
    obtain ⟨-, -, hleft⟩ := addPosition_operands w
    rw [runSteps_move (moveWork_add_succ hl)]
    exact ih (by omega)

theorem runSteps_sub_work {k : Nat} {w : SubWork} (hl : w.left = k) (s : State) :
    runSteps (k + 1) (s.setWork (some (.sub w))) =
      .next ((s.setWork none).deliver (.response (subFinish (subPositions k w)))) := by
  induction k generalizing w with
  | zero => exact runSteps_finish (moveWork_sub_zero hl) s
  | succ k ih =>
    obtain ⟨-, -, hleft⟩ := subPosition_operands w
    rw [runSteps_move (moveWork_sub_succ hl)]
    exact ih (by omega)

/-- The moves of a nested ADD end where the ADD taken whole does (R154). -/
theorem runSteps_nested {k : Nat} {n : NestedAdd} (hl : n.work.left = k) (w : MulWork) (s : State) :
    runSteps (k + 1) (s.setWork (some (.mul { w with nested := some n }))) =
      .next (s.setWork (some (.mul (mulAccumulate w (w.left - 1) n.pp (addFinish (addPositions k n.work)))))) := by
  induction k generalizing n with
  | zero => rw [runSteps_move (moveWork_mul_nested rfl), mulNestedMove_zero hl]; rfl
  | succ k ih =>
    obtain ⟨-, -, hleft⟩ := addPosition_operands n.work
    rw [runSteps_move (moveWork_mul_nested rfl), mulNestedMove_succ hl]
    exact ih (n := { n with work := addPosition n.work }) (by simp only [hleft]; omega)

/-- How many steps the position of weight `k` of a MUL takes whose extended multiplicand has length `n`: the summand of
`stepsPerPosition`. -/
def mulPositionSteps (n vb k : Nat) : Nat := if vb.testBit k then n + k + 2 else 1

theorem stepsPerPosition_mul (a b : Bitstring) : stepsPerPosition (.mul a b) =
    2 + ((List.range b.length).map (mulPositionSteps (a.length + b.length) (val b))).sum := rfl

/-- The steps of one position of a MUL, with those of its nested ADD, do what the position does whole (R169). -/
theorem runSteps_mulAt {w : MulWork} {i : Nat} (h : w.Ok) (hn : w.nested = none) (hl : w.left = i + 1) (s : State) :
    runSteps (mulPositionSteps w.ax.length (val w.b) (w.b.length - w.left)) (s.setWork (some (.mul w))) =
      .next (s.setWork (some (.mul (mulAt w i)))) := by
  have hbit := mul_bit h hl
  by_cases hb : bitAt w.b i = true
  · obtain ⟨-, -, hal, -, -⟩ := nested_operands h hl
    have hleft : w.left - 1 = i := by omega
    rw [mulPositionSteps, ← hbit, if_pos hb, runSteps_move (moveWork_mul_succ hn hl), mulEnterPosition, if_pos hb,
      runSteps_nested (by exact hal), mulAt, if_pos hb, add, hal, hleft]
  · rw [mulPositionSteps, ← hbit, if_neg hb, runSteps_move (moveWork_mul_succ hn hl), mulEnterPosition, if_neg hb,
      mulAt, if_neg hb]
    rfl

theorem runSteps_mul_work {k : Nat} {w : MulWork} (h : w.Ok) (hn : w.nested = none) (hl : w.left = k) (s : State) :
    runSteps (((List.range' (w.b.length - k) k).map (mulPositionSteps w.ax.length (val w.b))).sum + 1)
      (s.setWork (some (.mul w))) = .next ((s.setWork none).deliver (.response (mulFinish (mulPositions k w)))) := by
  induction k generalizing w with
  | zero => exact runSteps_finish (moveWork_mul_zero hn hl) s
  | succ k ih =>
    obtain ⟨-, -, -, hle, -⟩ := id h
    have hp : mulPosition w = mulAt w k := by simp only [mulPosition, hl]
    obtain ⟨hok, hn', hax, hb, hleft⟩ := mulPosition_ok h hn
    have hrest := ih hok hn' (by omega)
    rw [hax, hb, show w.b.length - k = w.b.length - (k + 1) + 1 by omega] at hrest
    have hone := runSteps_mulAt h hn hl s
    rw [hl, ← hp] at hone
    rw [List.range'_succ, List.map_cons, List.sum_cons, Nat.add_assoc, runSteps_add hone]
    exact hrest

/-- An operation started on well-formed operands delivers what the laws say in all but one of its steps, the one that
started it (R169, R170). -/
theorem runSteps_startWork {c : Config} {i : Instr} {a b : Bitstring} {w : Work} (hs : startWork i = some (a, b, w))
    (hf : i.wellFormed c = true) :
    ∃ k, stepsPerPosition i = k + 1 ∧
      ∀ s : State, runSteps k (s.setWork (some w)) = .next ((s.setWork none).deliver (lawDelivery i)) := by
  have hops := hf
  rw [startWork_wellFormed hs] at hops
  obtain ⟨ha, hb⟩ := requestOperands_pos hops
  cases i with
  | add a b =>
    cases hs
    exact ⟨alignedLength a b + 1, rfl, fun s => by
      rw [lawDelivery_add ha]; exact runSteps_add_work rfl s⟩
  | sub a b =>
    cases hs
    exact ⟨alignedLength a b + 1, rfl, fun s => by
      rw [lawDelivery_sub ha]; exact runSteps_sub_work rfl s⟩
  | mul a b =>
    cases hs
    refine ⟨_, (stepsPerPosition_mul a b).trans (by rw [Nat.add_comm 2]), fun s => ?_⟩
    have hlen : (mulStart a b).ax.length = a.length + b.length := by
      simp [mulStart, extendMultiplicand, Nat.add_comm]
    have hrun := runSteps_mul_work (k := b.length) (mulStart_ok ha hb) rfl rfl s
    rw [show (mulStart a b).b = b from rfl, Nat.sub_self, ← List.range_eq_range', hlen] at hrun
    rw [hrun, lawDelivery_mul ha hb]
    rfl
  | _ => cases hs

/-- An instruction that a step from `s` serves at the idle state `u` is answered in the stated number of steps. -/
theorem runSteps_of_serve {s u : State} {i : Instr} (hstep : step s = serve i u) (hw : u.work = none)
    (hf : i.wellFormed u.cfg = true) :
    runSteps (stepsFor u.cfg.granularity i) s = .next (u.deliver (lawDelivery i)) := by
  have whole (h : u.cfg.granularity = .operation ∨ startWork i = none) :
      runSteps 1 s = .next (u.deliver (lawDelivery i)) := by
    rw [serve_whole h, exec_eq_lawDelivery hf] at hstep
    exact runSteps_succ hstep
  cases hg : u.cfg.granularity with
  | operation => exact whole (.inl hg)
  | position =>
    rw [stepsFor]
    cases hs : startWork i with
    | none =>
      rw [stepsPerPosition_of_startWork_none hs]
      exact whole (.inr hs)
    | some p =>
      obtain ⟨a, b, w⟩ := p
      obtain ⟨k, hk, hrun⟩ := runSteps_startWork hs hf
      rw [serve_started hg hs, begin_of_ok (startWork_wellFormed hs u.cfg ▸ hf)] at hstep
      rw [hk, runSteps_succ hstep, hrun, setWork_none_of_idle hw]

/-- At either granularity the oldest input, a well-formed instruction, is served in the stated number of steps (R45, R169). -/
theorem runSteps_stepsFor {s : State} {x : Input} {rest : List Input} {i : Instr} (hw : s.work = none)
    (hi : s.inputs = x :: rest) (hd : decode x = .ok i) (hf : i.wellFormed s.cfg = true) :
    runSteps (stepsFor s.cfg.granularity i) s =
      .next { s with inputs := rest, outputs := s.outputs ++ [lawDelivery i] } :=
  runSteps_of_serve (u := { s with inputs := rest }) ((step_of_input hw hi).1 i hd) hw hf

/-- Settles O44, by induction on the queue: `runSteps_stepsFor` serves its first instruction. -/
theorem queueIsServedInOrder : Obligations.QueueIsServedInOrder := by
  intro s is
  induction is generalizing s with
  | nil =>
    intro hw hi hf
    rw [List.map_nil] at hi
    simp only [List.map_nil, List.append_nil, List.sum_nil, runSteps, ← hi]
  | cons i is ih =>
    intro hw hi hf
    have hfi := hf i List.mem_cons_self
    have hfirst := runSteps_stepsFor hw hi (decode_encode hfi) hfi
    have hrest := ih { s with inputs := is.map encode, outputs := s.outputs ++ [lawDelivery i] } hw rfl
      fun j hj => hf j (List.mem_cons_of_mem _ hj)
    rw [List.map_cons, List.sum_cons, runSteps_add hfirst, hrest]
    simp only [List.map_cons, List.append_assoc, List.singleton_append]

/-! ## The shape of what is delivered -/

theorem length_flatMap_range_pos {α : Type} {f : Nat → List α} {n : Nat} (hf : ∀ k, 1 ≤ (f k).length) (hn : 1 ≤ n) :
    1 ≤ ((List.range n).flatMap f).length := by
  obtain ⟨m, rfl⟩ : ∃ m, n = m + 1 := ⟨n - 1, by omega⟩
  have := hf m
  rw [flatMap_range_succ, List.length_append]
  omega

theorem mulEntries_length_pos (w va vb k : Nat) : 1 ≤ (mulEntries w va vb k).length := by
  unfold mulEntries
  split <;> simp

theorem addLaw_ok {n : Nat} (hn : 1 ≤ n) (va vb : Nat) : (Delivery.response (addLaw n va vb)).Ok := by
  unfold addLaw
  split <;> simp [Delivery.Ok, faEntries, hn]

theorem subLaw_ok {n : Nat} (hn : 1 ≤ n) (va vb : Nat) : (Delivery.response (subLaw n va vb)).Ok := by
  simp [Delivery.Ok, subLaw, fsEntries, hn]

/-- The response to a MUL, with the trace of `n` positions. -/
theorem mulResponse_ok {n : Nat} (hn : 1 ≤ n) (v w va vb : Nat) :
    (Delivery.response { result := shortest v, trace := (List.range n).flatMap (mulEntries w va vb) }).Ok :=
  ⟨by rw [shortest, toBits_length]; exact shortestLength_pos v,
    length_flatMap_range_pos (mulEntries_length_pos w va vb) hn⟩

/-- What the laws say of a well-formed instruction has the shape of its format (R55, R60, R61, R62, R91). -/
theorem lawDelivery_ok {c : Config} {i : Instr} (h : i.wellFormed c = true) : (lawDelivery i).Ok := by
  cases i with
  | add a b => exact addLaw_ok (alignedLength_pos (requestOperands_pos h).1) _ _
  | sub a b => exact subLaw_ok (alignedLength_pos (requestOperands_pos h).1) _ _
  | mul a b => exact mulResponse_ok (requestOperands_pos h).2 _ _ _ _
  | pad a b =>
    simp only [Instr.wellFormed, Bool.and_eq_true, decide_eq_true_eq] at h
    obtain ⟨ha, -⟩ := h
    simp [lawDelivery, Delivery.Ok, ha]
  | addBit a b c => trivial
  | subBit a b c => trivial
  | and a b => trivial
  | or a b => trivial
  | xor a b => trivial
  | not a => trivial

/-! ## The invariant of the working values -/

/-- What an operation starts from are the values of no position done (R22, R23, R24). -/
theorem startWork_ok {c : Config} {i : Instr} {a b : Bitstring} {w : Work} (hs : startWork i = some (a, b, w))
    (hf : i.wellFormed c = true) : w.Ok := by
  rw [startWork_wellFormed hs] at hf
  obtain ⟨ha, hb⟩ := requestOperands_pos hf
  cases i with
  | add a b => cases hs; exact addStart_ok ha
  | sub a b => cases hs; exact subStart_ok ha
  | mul a b => cases hs; exact mulStart_ok ha hb
  | _ => cases hs

/-- A MUL that enters a position skips it or suspends for a nested ADD with no position done (R145, R147, R169). -/
theorem mulEnterPosition_ok {w : MulWork} {i : Nat} (h : w.Ok) (hn : w.nested = none) (hl : w.left = i + 1) :
    (mulEnterPosition w i).Ok := by
  have hbit := mul_bit h hl
  unfold mulEnterPosition
  split
  · rename_i hb
    have hleft : 1 ≤ w.left := by omega
    obtain ⟨hpp, hpos, hal, hv, hvpp⟩ := nested_operands h hl
    obtain ⟨hlb, hax, hva, hle, hp, ht, -⟩ := h
    have hnested : NestedAdd.Ok
        { pp := partialProduct w.ax w.b i, work := addStart w.product (partialProduct w.ax w.b i) }
        w.ax.length (val w.ax) (val w.b) (w.b.length - w.left) := by
      refine ⟨hbit ▸ hb, hpp, addStart_ok hpos, ?_, ?_⟩
      · simp only [addStart, align_eq, hal, hv]
      · simp only [addStart, align_eq, hal, hvpp]
    exact ⟨hlb, hax, hva, hle, hp, ht, hleft, hnested⟩
  · rename_i hb
    exact mulSkip_ok h hl hn (by rw [← hbit]; simpa using hb)

/-- A nested ADD with no position left has the result of the law of ADD on its operands (R145, R151). -/
theorem addFinish_nested {w va vb k lb : Nat} {n : NestedAdd} (hlb : 1 ≤ lb) (hw : lb + 1 ≤ w) (hva : va < 2 ^ (w - lb))
    (h : n.Ok w va vb k) (hl : n.work.left = 0) :
    addFinish n.work = addLaw (w + k) (va * (vb % 2 ^ k)) (va * 2 ^ k) := by
  obtain ⟨-, -, hok, ha, hb⟩ := h
  have hk : vb % 2 ^ k < 2 ^ (k + 1) := (Nat.mod_lt _ (by positivity)).trans (Nat.pow_lt_pow_succ (by decide))
  have hk' : 2 ^ k < 2 ^ (k + 1) := Nat.pow_lt_pow_succ (by decide)
  rw [addFinish_eq hok hl, ha, hb, toBits_length, val_toBits, val_toBits,
    Nat.mod_eq_of_lt (product_fits hlb hw hva hk), Nat.mod_eq_of_lt (product_fits hlb hw hva hk')]

/-- A nested ADD moves by one position or returns its sum to the MUL (R145, R154). -/
theorem mulNestedMove_ok {w : MulWork} {n : NestedAdd} (h : w.Ok) (hn : w.nested = some n) : (mulNestedMove w n).Ok := by
  obtain ⟨hlb, hax, hva, hle, hp, ht, hnested⟩ := id h
  rw [hn] at hnested
  obtain ⟨hpos, hnok⟩ := hnested
  obtain ⟨hbit, hpp, hwork, ha, hb⟩ := id hnok
  cases hl : n.work.left with
  | zero =>
    rw [mulNestedMove_zero hl, hpp, addFinish_nested hlb hax hva hnok hl]
    exact mulAccumulate_ok h (by omega) hbit
  | succ k =>
    obtain ⟨ha', hb', -⟩ := addPosition_operands n.work
    rw [mulNestedMove_succ hl]
    exact ⟨hlb, hax, hva, hle, hp, ht, hpos, hbit, hpp, addPosition_ok hwork, ha'.trans ha, hb'.trans hb⟩

/-- A move from the working values of some number of positions done leads to such working values. -/
theorem moveWork_ok {w w' : Work} (h : w.Ok) (hm : moveWork w = .inr w') : w'.Ok := by
  cases w with
  | add w =>
    cases hl : w.left with
    | zero => rw [moveWork_add_zero hl] at hm; cases hm
    | succ i => rw [moveWork_add_succ hl] at hm; cases hm; exact addPosition_ok h
  | sub w =>
    cases hl : w.left with
    | zero => rw [moveWork_sub_zero hl] at hm; cases hm
    | succ i => rw [moveWork_sub_succ hl] at hm; cases hm; exact subPosition_ok h
  | mul w =>
    cases hn : w.nested with
    | some n => rw [moveWork_mul_nested hn] at hm; cases hm; exact mulNestedMove_ok h hn
    | none =>
      cases hl : w.left with
      | zero => rw [moveWork_mul_zero hn hl] at hm; cases hm
      | succ i => rw [moveWork_mul_succ hn hl] at hm; cases hm; exact mulEnterPosition_ok h hn hl

/-- The response of an operation that has no position left has the shape of its format. -/
theorem moveWork_response_ok {w : Work} {r : ArithmeticResult} (h : w.Ok) (hm : moveWork w = .inl r) :
    (Delivery.response r).Ok := by
  cases w with
  | add w =>
    obtain ⟨-, hlen, -⟩ := id h
    cases hl : w.left with
    | zero => rw [moveWork_add_zero hl, addFinish_eq h hl] at hm; cases hm; exact addLaw_ok hlen _ _
    | succ i => rw [moveWork_add_succ hl] at hm; cases hm
  | sub w =>
    obtain ⟨-, hlen, -⟩ := id h
    cases hl : w.left with
    | zero => rw [moveWork_sub_zero hl, subFinish_eq h hl] at hm; cases hm; exact subLaw_ok hlen _ _
    | succ i => rw [moveWork_sub_succ hl] at hm; cases hm
  | mul w =>
    obtain ⟨hlb, -⟩ := id h
    cases hn : w.nested with
    | some n => rw [moveWork_mul_nested hn] at hm; cases hm
    | none =>
      cases hl : w.left with
      | zero => rw [moveWork_mul_zero hn hl, mulFinish_eq h hl] at hm; cases hm; exact mulResponse_ok hlb _ _ _ _
      | succ i => rw [moveWork_mul_succ hn hl] at hm; cases hm

/-! ## The invariant of the state -/

theorem inv_deliver {s : State} {d : Delivery} (h : s.Inv) (hd : d.Ok) : (s.deliver d).Inv where
  work := h.work
  outputs e he := by
    rw [deliver_outputs, List.mem_append, List.mem_singleton] at he
    rcases he with he | rfl
    · exact h.outputs e he
    · exact hd

theorem inv_setWork_some {s : State} {w : Work} (h : s.Inv) (hw : w.Ok) : (s.setWork (some w)).Inv where
  work v hv := by cases hv; exact hw
  outputs := h.outputs

theorem inv_setWork_none {s : State} (h : s.Inv) : (s.setWork none).Inv where
  work _ hv := by cases hv
  outputs := h.outputs

/-- What `serve` can do when it answers a next state: deliver what the laws say of a well-formed instruction, or start its
operation. -/
theorem serve_next_cases {i : Instr} {s t : State} (h : serve i s = .next t) :
    i.wellFormed s.cfg = true ∧
      (t = s.deliver (lawDelivery i) ∨ ∃ a b w, startWork i = some (a, b, w) ∧ t = s.setWork (some w)) := by
  have whole (hw : s.cfg.granularity = .operation ∨ startWork i = none) :
      i.wellFormed s.cfg = true ∧ t = s.deliver (lawDelivery i) := by
    rw [serve_whole hw] at h
    rcases exec_wellFormed_cases i s with ⟨hf, -⟩ | ⟨-, r, hr⟩
    · rw [exec_eq_lawDelivery hf] at h
      cases h
      exact ⟨hf, rfl⟩
    · rw [hr] at h
      cases h
  cases hg : s.cfg.granularity with
  | operation => exact (whole (.inl hg)).imp_right .inl
  | position =>
    cases hs : startWork i with
    | none => exact (whole (.inr hs)).imp_right .inl
    | some p =>
      obtain ⟨a, b, w⟩ := p
      rw [serve_started hg hs] at h
      cases hr : requestRefusal s.cfg a b with
      | some r => simp only [begin, hr] at h; cases h
      | none =>
        have hops := requestRefusal_eq_none.1 hr
        rw [begin_of_ok hops] at h
        cases h
        exact ⟨(startWork_wellFormed hs s.cfg).trans hops, .inr ⟨a, b, w, rfl, rfl⟩⟩

/-- Settles O46: each way of `step_next_cases` is a move, a response, a start or a delivery, and each keeps the invariant. -/
theorem stepKeepsTheInvariant : Obligations.StepKeepsTheInvariant := by
  intro s t hinv ht
  rcases step_next_cases ht with
    ⟨w, r, hw, hm, rfl⟩ | ⟨w, w', hw, hm, rfl⟩ | ⟨-, -, rfl⟩ | ⟨x, rest, -, -, hserved⟩
  · exact inv_deliver (inv_setWork_none hinv) (moveWork_response_ok (hinv.work w hw) hm)
  · exact inv_setWork_some hinv (moveWork_ok (hinv.work w hw) hm)
  · exact hinv
  · have hinv' : ({ s with inputs := rest } : State).Inv := ⟨hinv.work, hinv.outputs⟩
    rcases hserved with ⟨i, -, hserve⟩ | ⟨o, -, rfl⟩
    · obtain ⟨hf, rfl | ⟨a, b, w, hs, rfl⟩⟩ := serve_next_cases hserve
      · exact inv_deliver hinv' (lawDelivery_ok hf)
      · exact inv_setWork_some hinv' (startWork_ok hs hf)
    · exact inv_deliver hinv' trivial

/-- Settles O47: after reset there are no working values and no deliveries. -/
theorem resetMeetsTheInvariant : Obligations.ResetMeetsTheInvariant where
  work _ h := by rw [reset_work] at h; cases h
  outputs _ h := by rw [reset_outputs] at h; cases h

end Sys2Proof.Machine
end

section
/-!
PROOFS. An operation in progress: either granularity serves the same response, and from whatever working values a response
is delivered.
-/

namespace Sys2Proof.Machine

/-! ## One response at either granularity -/

/-- Settles O43: whole or position by position, `runSteps_stepsFor` serves the oldest input with the delivery of the laws. -/
theorem everyGranularityServesTheSameResponse : Obligations.EveryGranularityServesTheSameResponse :=
  fun _ _ _ _ hw hi hd hf => runSteps_stepsFor hw hi hd hf

/-! ## A MUL from whatever working values -/

/-- A position processed from its start leaves one position less and no nested ADD (R143). -/
theorem mulAt_left_nested {w : MulWork} (hn : w.nested = none) (i : Nat) :
    (mulAt w i).left = i ∧ (mulAt w i).nested = none := by
  unfold mulAt
  split
  · exact ⟨rfl, rfl⟩
  · exact ⟨rfl, hn⟩

/-- The position steps of a MUL do what the position does whole, as `runSteps_mulAt` says, also where the working values
meet no invariant and the number of steps is not that of the laws. -/
theorem exists_runSteps_mulAt {w : MulWork} {i : Nat} (hn : w.nested = none) (hl : w.left = i + 1) (s : State) :
    ∃ k, runSteps k (s.setWork (some (.mul w))) = .next (s.setWork (some (.mul (mulAt w i)))) := by
  have henter k := runSteps_move (moveWork_mul_succ hn hl) k s
  by_cases hb : bitAt w.b i = true
  · have hleft : w.left - 1 = i := by omega
    refine ⟨alignedLength w.product (partialProduct w.ax w.b i) + 1 + 1, ?_⟩
    rw [henter, mulEnterPosition, if_pos hb, runSteps_nested (by rfl), mulAt, if_pos hb, hleft]
    rfl
  · refine ⟨1, ?_⟩
    rw [henter, mulEnterPosition, if_neg hb, mulAt, if_neg hb]
    rfl

/-- A MUL with no nested ADD in progress delivers its response, by induction on the positions left. -/
theorem exists_runSteps_mul {k : Nat} {w : MulWork} (hn : w.nested = none) (hl : w.left = k) (s : State) :
    ∃ j r, runSteps j (s.setWork (some (.mul w))) = .next ((s.setWork none).deliver (.response r)) := by
  induction k generalizing w with
  | zero => exact ⟨1, _, runSteps_finish (moveWork_mul_zero hn hl) s⟩
  | succ i ih =>
    obtain ⟨j, hj⟩ := exists_runSteps_mulAt hn hl s
    obtain ⟨hleft, hnone⟩ := mulAt_left_nested hn i
    obtain ⟨j', r, hr⟩ := ih hnone hleft
    exact ⟨j + j', r, (runSteps_add hj).trans hr⟩

/-- An operation in progress delivers its response: a nested ADD first returns to its MUL (R154, R169). -/
theorem exists_runSteps_work (w : Work) (s : State) :
    ∃ k r, runSteps k (s.setWork (some w)) = .next ((s.setWork none).deliver (.response r)) := by
  cases w with
  | add w => exact ⟨_, _, runSteps_add_work rfl s⟩
  | sub w => exact ⟨_, _, runSteps_sub_work rfl s⟩
  | mul w =>
    cases hn : w.nested with
    | none => exact exists_runSteps_mul hn rfl s
    | some n =>
      have hw : { w with nested := some n } = w := by rw [← hn]
      have hnested := runSteps_nested rfl w s (n := n)
      rw [hw] at hnested
      obtain ⟨j, r, hr⟩ := exists_runSteps_mul (rfl : (mulAccumulate w _ n.pp _).nested = none) rfl s
      exact ⟨_, r, (runSteps_add hnested).trans hr⟩

/-- Settles O45: the state is the one whose working values `exists_runSteps_work` runs to a response. -/
theorem startedOperationDelivers : Obligations.StartedOperationDelivers := by
  intro s w hw
  obtain ⟨k, r, hr⟩ := exists_runSteps_work w s
  have hs : s.setWork (some w) = s := by rw [State.setWork, ← hw]
  rw [hs] at hr
  exact ⟨k, r, hr⟩

end Sys2Proof.Machine
end

section
/-!
PROOFS. Encoding: a request frame, a text call and a pin vector are each read as the instruction written in them and nothing
else decodes, an operation select of 11 is refused, a trace entry can be read back from its code and fields, and the digits
of a SUB.
-/

namespace Sys2Proof.Machine

/-! ## From an instruction to its input and back -/

/-- Settles O2, by `decode_encode`: the framing reads each operand back, and the operation select or the unit the
instruction. -/
theorem decodeOfEncodeIsTheInstruction : Obligations.DecodeOfEncodeIsTheInstruction :=
  fun _ _ h => decode_encode h

theorem decode_requestFrame {a b : Bitstring} (ha : 1 ≤ a.length) (hb : 1 ≤ b.length) (code : BitVec 2) :
    decode (.port (requestFrame code a b)) = selectOperation code a b := by
  simp only [decode, requestFrame, decodeRequest, decodeOperands_symbols ha hb]

theorem readOperand_toText {s : Bitstring} (h : 1 ≤ s.length) : readOperand (toText s) = some s :=
  readOperand_eq_some.2 ⟨rfl, List.ne_nil_of_length_pos h⟩

theorem decode_encodeText {a b : Bitstring} (ha : 1 ≤ a.length) (hb : 1 ≤ b.length) (code : BitVec 2) :
    decode (encodeText code a b) = selectOperation code a b := by
  simp only [decode, encodeText, boundaryGuard, readOperand_toText ha, readOperand_toText hb]

/-- Settles O3: past the guard, each of the three codes selects its operation. -/
theorem textCallIsTheRequestItNames : Obligations.TextCallIsTheRequestItNames :=
  fun _ _ ha hb => ⟨decode_encodeText ha hb _, decode_encodeText ha hb _, decode_encodeText ha hb _⟩

/-- Settles O6: with either form the operation select is reached, and the code 11 selects nothing. -/
theorem reservedOperationIsRefused : Obligations.ReservedOperationIsRefused := by
  intro s a b x rest ha hb hw hi hx
  have hd : decode x = selectOperation 0b11#2 a b := by
    rcases hx with rfl | rfl
    · exact decode_requestFrame ha hb _
    · exact decode_encodeText ha hb _
  obtain ⟨-, turnedAway⟩ := step_of_input hw hi
  exact turnedAway .reservedOp hd

/-- Settles O1, by running the decoder on the words. -/
theorem writtenWordsDecode : Obligations.WrittenWordsDecode := by
  unfold Obligations.WrittenWordsDecode
  decide

/-! ## From an input that decodes to its instruction -/

/-- A selected operation has the code that selected it and the operands it was given (R58). -/
theorem selectOperation_eq_ok {code : BitVec 2} {a b : Bitstring} {i : Instr} (h : selectOperation code a b = .ok i) :
    operationCode i = some code ∧ encode i = .port (requestFrame code a b) := by
  rcases selectOperation_cases code a b with ⟨rfl, hs⟩ | ⟨rfl, hs⟩ | ⟨rfl, hs⟩ | ⟨-, hs⟩
  · rw [hs] at h; cases h; exact ⟨rfl, rfl⟩
  · rw [hs] at h; cases h; exact ⟨rfl, rfl⟩
  · rw [hs] at h; cases h; exact ⟨rfl, rfl⟩
  · rw [hs] at h; cases h

/-- The guard passes nothing but the text of what it passes on (R181). -/
theorem boundaryGuard_eq_ok {ta tb : List Char} {a b : Bitstring} (h : boundaryGuard ta tb = .ok (a, b)) :
    ta = toText a ∧ tb = toText b := by
  unfold boundaryGuard at h
  split at h
  · cases h
  · rename_i ha
    split at h
    · cases h
    · rename_i hb
      cases h
      exact ⟨(readOperand_eq_some.1 ha).1, (readOperand_eq_some.1 hb).1⟩

/-- Nothing but a request frame is read from the request port (R57). -/
theorem decodeRequest_eq_ok {f : List PortSymbol} {i : Instr} (h : decodeRequest f = .ok i) :
    ∃ code a b, f = requestFrame code a b ∧ selectOperation code a b = .ok i := by
  unfold decodeRequest at h
  split at h
  · rename_i code _
    split at h
    · rename_i a b hops
      obtain ⟨rfl, -⟩ := decodeOperands_eq_ok hops
      exact ⟨code, a, b, rfl, h⟩
    · cases h
  · cases h

/-- A unit's inputs that decode are the vector of the instruction (R70). -/
theorem decodePins_eq_ok {u : InternalUnit} {v : List PortSymbol} {i : Instr} (h : decodePins u v = .ok i) :
    encode i = .pins u v := by
  unfold decodePins at h
  split at h
  · split at h
    · rename_i hops
      obtain ⟨rfl, -⟩ := decodeOperands_eq_ok hops
      cases h
      rfl
    · cases h
  all_goals cases h
  all_goals rfl

/-- What decodes is a request, by frame or by text, that the operation select accepts, or the vector of an internal unit
(R57, R68, R70). -/
theorem decode_eq_ok_cases {x : Input} {i : Instr} (h : decode x = .ok i) :
    (∃ code a b, (x = .port (requestFrame code a b) ∨ x = encodeText code a b) ∧ selectOperation code a b = .ok i) ∨
    ∃ u v, x = .pins u v ∧ encode i = .pins u v := by
  cases x with
  | text code ta tb =>
    simp only [decode] at h
    split at h
    · rename_i a b hguard
      obtain ⟨rfl, rfl⟩ := boundaryGuard_eq_ok hguard
      exact .inl ⟨code, a, b, .inr rfl, h⟩
    · cases h
  | port f =>
    obtain ⟨code, a, b, rfl, hs⟩ := decodeRequest_eq_ok h
    exact .inl ⟨code, a, b, .inl rfl, hs⟩
  | pins u v => exact .inr ⟨u, v, rfl, decodePins_eq_ok h⟩

/-- Settles O4: a frame and a vector are the encoding, and a text call is the other form of the same request. -/
theorem decodedInputIsAnEncoding : Obligations.DecodedInputIsAnEncoding := by
  intro x i h
  rcases decode_eq_ok_cases h with ⟨code, a, b, hx, hs⟩ | ⟨u, v, rfl, he⟩
  · obtain ⟨hc, he⟩ := selectOperation_eq_ok hs
    rcases hx with rfl | rfl
    · exact .inl he.symm
    · exact .inr ⟨code, a, b, rfl, hc, he⟩
  · exact .inl he.symm

/-- Settles O5: but for a vector, what decodes has passed the operation select. -/
theorem hostReachesOnlyThreeOperations : Obligations.HostReachesOnlyThreeOperations := by
  intro x i hx h
  rcases decode_eq_ok_cases h with ⟨code, a, b, -, hs⟩ | ⟨u, v, rfl, -⟩
  · exact ⟨code, (selectOperation_eq_ok hs).1⟩
  · exact absurd rfl (hx u v)

/-! ## Reading a trace entry back -/

/-- The trace entry with a kind's code and the fields in the order of R63, as a trace port would be read. -/
def readEntry : Nat → List PortSymbol → Option TraceEntry
  | 0, [.bit a, .bit b, .bit cin, .bit sum, .bit cout] => some (.faStep a b cin sum cout)
  | 1, [.bit carry] => some (.finalCarry carry)
  | 2, [.bit a, .bit b, .bit bin, .bit diff, .bit bout] => some (.fsStep a b bin diff bout)
  | 3, f => do
    let (pp, rest) ← takeOperand f
    let (product, _) ← takeOperand rest
    return .partialProduct pp product
  | 4, f => do
    let (zs, _) ← takeOperand f
    return .skip zs
  | _, _ => none

/-- The length before its symbols tells where the first field of a PARTIAL ends (R56). -/
theorem readEntry_code_fields (e : TraceEntry) : readEntry e.code e.fields = some e := by
  have last : ∀ s, takeOperand (operandSymbols s) = some (s, []) := fun s => by
    rw [← takeOperand_symbols s [], List.append_nil]
  cases e with
  | faStep a b cin sum cout => rfl
  | finalCarry carry => rfl
  | fsStep a b bin diff bout => rfl
  | partialProduct pp product => simp [TraceEntry.code, TraceEntry.fields, readEntry, takeOperand_symbols, last]
  | skip zs => simp [TraceEntry.code, TraceEntry.fields, readEntry, last]

/-- Settles O7: an entry is what `readEntry` reads from its code and fields. -/
theorem traceEntryFieldsDetermineIt : Obligations.TraceEntryFieldsDetermineIt := by
  intro e f hcode hfields
  have h := readEntry_code_fields e
  rw [hcode, hfields, readEntry_code_fields f] at h
  exact (Option.some.inj h).symm

/-! ## The digits of a SUB -/

/-- `difference` is the difference of the integers modulo `2^n` (R163). -/
theorem difference_cast {n vb : Nat} (hb : vb ≤ 2 ^ n) (va : Nat) :
    (difference n va vb : Int) = ((va : Int) - vb) % 2 ^ n := by
  have e : (va : Int) + (2 ^ n - vb) = va - vb + 2 ^ n := by ring
  rw [difference]
  push_cast [Nat.cast_sub hb]
  rw [e, Int.add_emod_right]

/-- With the smaller minuend the difference wraps around once (R163). -/
theorem difference_of_lt {n va vb : Nat} (hb : vb ≤ 2 ^ n) (h : va < vb) : difference n va vb = 2 ^ n - (vb - va) := by
  rw [difference, Nat.mod_eq_of_lt (by omega)]
  omega

theorem val_toBits_difference (n va vb : Nat) : val (toBits n (difference n va vb)) = difference n va vb := by
  rw [val_toBits, Nat.mod_eq_of_lt (difference_lt n va vb)]

theorem subLaw_digits {n : Nat} (hn : 1 ≤ n) (va vb : Nat) :
    (subLaw n va vb).result.drop 1 = strip (toBits n (difference n va vb)) := by
  have hne : toBits n (difference n va vb) ≠ [] := List.ne_nil_of_length_pos (by rwa [toBits_length])
  rw [strip_eq_shortest hne, val_toBits_difference]
  rfl

/-- Settles O25: `m` is the Bitstring of length `n` of the modular difference, and its strip is what the law of SUB puts
after the sign. -/
theorem subDigitsAreTheModularDifference : Obligations.SubDigitsAreTheModularDifference := by
  intro a b s h
  obtain ⟨ha, -⟩ := requestOperands_pos h
  have hb : val b ≤ 2 ^ max a.length b.length :=
    (val_lt b).le.trans (Nat.pow_le_pow_right (by decide) (le_max_right _ _))
  refine ⟨subLaw (max a.length b.length) (val a) (val b),
    toBits (max a.length b.length) (difference (max a.length b.length) (val a) (val b)),
    exec_eq_lawDelivery h, subLaw_digits (alignedLength_pos ha) _ _, toBits_length _ _, ?_, ?_⟩
  · rw [val_toBits_difference, difference_cast hb]
  · rw [val_toBits_difference]
    exact difference_of_lt hb

end Sys2Proof.Machine
end

section
/-!
PROOFS. The cells: the gates follow their truth tables, ADD_BIT counts the ones among its inputs, SUB_BIT subtracts with
borrow, and the two formulas for the borrow are one function.
-/

namespace Sys2Proof.Machine

/-! ## The gates -/

theorem gateAnd_toNat (a b : Bit) : (gateAnd a b).toNat = if a = true ∧ b = true then 1 else 0 := by
  cases a <;> cases b <;> rfl

theorem gateOr_toNat (a b : Bit) : (gateOr a b).toNat = if a = false ∧ b = false then 0 else 1 := by
  cases a <;> cases b <;> rfl

theorem gateXor_toNat (a b : Bit) : (gateXor a b).toNat = if a ≠ b then 1 else 0 := by
  cases a <;> cases b <;> rfl

theorem gateNot_toNat (a : Bit) : (gateNot a).toNat = 1 - a.toNat := by
  cases a <;> rfl

/-- Settles O11: each gate delivers its output bit, which is that of its truth table. -/
theorem gateCellsFollowTheirTables : Obligations.GateCellsFollowTheirTables :=
  fun a b _ => ⟨⟨gateAnd a b, rfl, gateAnd_toNat a b⟩, ⟨gateOr a b, rfl, gateOr_toNat a b⟩,
    ⟨gateXor a b, rfl, gateXor_toNat a b⟩, ⟨gateNot a, rfl, gateNot_toNat a⟩⟩

/-! ## What the cells deliver -/

theorem exec_addBit (a b c : Bit) (s : State) :
    exec (.addBit a b c) s = .next (s.deliver (.sumCarry (addBit a b c).1 (addBit a b c).2)) := rfl

theorem exec_subBit (a b c : Bit) (s : State) :
    exec (.subBit a b c) s = .next (s.deliver (.diffBorrow (subBit a b c).1 (subBit a b c).2)) := rfl

/-! ## ADD_BIT -/

/-- A count of at most three is its parity and twice whether it reaches two. -/
theorem count_eq_parity_add_carry {n : Nat} (h : n ≤ 3) :
    n = (decide (n % 2 = 1)).toNat + 2 * (decide (2 ≤ n)).toNat := by
  interval_cases n <;> rfl

/-- The sum and the carry are the two-bit count of the ones (R101). -/
theorem addBit_count (a b c : Bit) :
    a.toNat + b.toNat + c.toNat = (addBit a b c).1.toNat + 2 * (addBit a b c).2.toNat := by
  have hle : a.toNat + b.toNat + c.toNat ≤ 3 :=
    Nat.add_le_add (Nat.add_le_add a.toNat_le b.toNat_le) c.toNat_le
  rw [addBit_eq_count]
  exact count_eq_parity_add_carry hle

theorem addBit_comm (a b c : Bit) : addBit a b c = addBit b a c := by
  rw [addBit_eq_count, addBit_eq_count, Nat.add_comm a.toNat]

theorem addBit_right_comm (a b c : Bit) : addBit a b c = addBit a c b := by
  rw [addBit_eq_count, addBit_eq_count, Nat.add_right_comm]

/-- Settles O12: the outputs are the count of the ones, which no exchange of the inputs changes. -/
theorem addBitCountsTheOnes : Obligations.AddBitCountsTheOnes := by
  intro a b c s
  refine ⟨⟨_, _, exec_addBit a b c s, addBit_count a b c⟩, ?_, ?_⟩
  · rw [exec_addBit, exec_addBit, addBit_comm]
  · rw [exec_addBit, exec_addBit, addBit_right_comm]

/-! ## SUB_BIT -/

theorem subBit_diff_eq_addBit_sum (a b c : Bit) : (subBit a b c).1 = (addBit a b c).1 := rfl

/-- The difference bit less twice the borrow is the difference of the inputs (R104). -/
theorem subBit_identity (a b c : Bit) :
    (a.toNat : Int) - b.toNat - c.toNat = (subBit a b c).1.toNat - 2 * (subBit a b c).2.toNat := by
  cases a <;> cases b <;> cases c <;> rfl

/-- Settles O13: the difference bit is formed as ADD_BIT forms its sum bit, and with the borrow it meets the identity. -/
theorem subBitSubtractsWithBorrow : Obligations.SubBitSubtractsWithBorrow := by
  intro a b c s
  refine ⟨(subBit a b c).1, (subBit a b c).2, (addBit a b c).2, exec_subBit a b c s, ?_, subBit_identity a b c⟩
  rw [exec_addBit, subBit_diff_eq_addBit_sum]

/-! ## The two formulas for the borrow -/

theorem gateXor_gateNot (a b : Bit) : gateXor (gateNot a) b = gateNot (gateXor a b) := by
  simp only [gateXor_eq, gateNot_eq, Bool.not_xor]

theorem borrowOut_eq_alternative (a b c : Bit) : borrowOut a b c = borrowOutAlternative a b c := by
  rw [borrowOut, borrowOutAlternative, gateXor_gateNot]

/-- Settles O14: the formulas differ in `gateXor_gateNot` only, and SUB_BIT delivers the first. -/
theorem borrowFormulasAgree : Obligations.BorrowFormulasAgree := by
  intro a b c
  refine ⟨gateXor_gateNot a b, borrowOut_eq_alternative a b c, fun s => ⟨(subBit a b c).1, ?_⟩⟩
  rw [← borrowOut_eq_alternative]
  exact exec_subBit a b c s

end Sys2Proof.Machine
end

section
/-!
PROOFS. The Aligner: PAD left-pads the shorter operand with zeros to the longer length, keeps both values, and leaves what it
delivered as it is.
-/

namespace Sys2Proof.Machine

/-! ## What PAD delivers -/

/-- On non-empty operands PAD delivers each of them padded to the aligned length (R90). -/
theorem exec_pad {a b : Bitstring} (ha : 1 ≤ a.length) (hb : 1 ≤ b.length) (s : State) :
    exec (.pad a b) s =
      .next (s.deliver (.aligned (padTo (alignedLength a b) a) (padTo (alignedLength a b) b))) := by
  have accepted : (emptyRefusal .a a <|> emptyRefusal .b b) = none := padRefusal_eq_none.2 (by simp [ha, hb])
  simp only [exec, execPad, accepted, output, align]

/-- Settles O15 by `exec_pad`: padding to the aligned length is what the statement writes out. -/
theorem padLeftPadsTheShorterOperand : Obligations.PadLeftPadsTheShorterOperand :=
  fun _ _ s ha hb => exec_pad ha hb s

/-! ## Padding what is already aligned -/

/-- An operand that has the length already is not changed by padding. -/
theorem padTo_of_length_eq {n : Nat} {s : Bitstring} (h : s.length = n) : padTo n s = s := by
  rw [padTo, h, Nat.sub_self, zeros_zero, List.nil_append]

/-- Between operands of one length PAD delivers them unchanged. -/
theorem exec_pad_of_length_eq {n : Nat} {a b : Bitstring} (hn : 1 ≤ n) (ha : a.length = n) (hb : b.length = n)
    (s : State) : exec (.pad a b) s = .next (s.deliver (.aligned a b)) := by
  have aligned : alignedLength a b = n := by rw [alignedLength, ha, hb, max_self]
  rw [exec_pad (hn.trans_eq ha.symm) (hn.trans_eq hb.symm), aligned, padTo_of_length_eq ha, padTo_of_length_eq hb]

/-- Settles O16: both padded operands have the aligned length, so that a second PAD finds nothing to add. -/
theorem padKeepsValuesAndIsIdempotent : Obligations.PadKeepsValuesAndIsIdempotent := by
  intro a b s ha hb
  have hpos := alignedLength_pos (b := b) ha
  have hla : (padTo (alignedLength a b) a).length = alignedLength a b := padTo_length _ a (le_max_left _ _)
  have hlb : (padTo (alignedLength a b) b).length = alignedLength a b := padTo_length _ b (le_max_right _ _)
  exact ⟨_, _, exec_pad ha hb s, hla, hlb, val_padTo _ a, val_padTo _ b, ⟨_, rfl⟩, ⟨_, rfl⟩,
    hpos.trans_eq hla.symm, exec_pad_of_length_eq hpos hla hlb⟩

end Sys2Proof.Machine
end

section
/-!
PROOFS. The Adder: the shape of ADD's trace and result as the laws give them, the carry and the borrow handed from position
to position, and the exchange of the operands.
-/

namespace Sys2Proof.Machine

/-! ## The whole response -/

/-- Settles O17: what the laws say of an ADD is the response at the aligned length. -/
theorem addDeliversItsLaw : Obligations.AddDeliversItsLaw :=
  fun _ _ _ h => exec_eq_lawDelivery h

/-! ## The entries of a trace -/

@[simp] theorem faEntries_length (va vb n : Nat) : (faEntries va vb n).length = n := by
  rw [faEntries, List.length_map, List.length_range]

theorem faEntries_getElem? {k n : Nat} (hk : k < n) (va vb : Nat) :
    (faEntries va vb n)[k]? = some (faEntry va vb k) := by
  rw [faEntries, List.getElem?_map, List.getElem?_range hk, Option.map_some]

theorem finalCarry_not_mem_faEntries (c : Bit) (va vb n : Nat) : TraceEntry.finalCarry c ∉ faEntries va vb n := by
  simp [faEntries, faEntry]

theorem subLaw_trace_getElem? {k n : Nat} (hk : k < n) (va vb : Nat) :
    (subLaw n va vb).trace[k]? = some (fsEntry va vb k) := by
  rw [subLaw, fsEntries, List.getElem?_map, List.getElem?_range hk, Option.map_some]

/-! ## ADD with and without a final carry -/

theorem addLaw_of_carry {n va vb : Nat} (h : 2 ^ n ≤ va + vb) :
    addLaw n va vb = { result := toBits (n + 1) (va + vb), trace := faEntries va vb n ++ [.finalCarry true] } :=
  if_pos h

theorem addLaw_of_no_carry {n va vb : Nat} (h : ¬ 2 ^ n ≤ va + vb) :
    addLaw n va vb = { result := toBits n (va + vb), trace := faEntries va vb n } :=
  if_neg h

theorem addLaw_trace_getElem? {k n : Nat} (hk : k < n) (va vb : Nat) :
    (addLaw n va vb).trace[k]? = some (faEntry va vb k) := by
  by_cases h : 2 ^ n ≤ va + vb
  · rw [addLaw_of_carry h, List.getElem?_append_left (by rwa [faEntries_length]), faEntries_getElem? hk]
  · rw [addLaw_of_no_carry h, faEntries_getElem? hk]

theorem addLaw_trace_getElem?_last {n va vb : Nat} (h : 2 ^ n ≤ va + vb) :
    (addLaw n va vb).trace[n]? = some (.finalCarry true) := by
  simp [addLaw_of_carry h]

theorem finalCarry_mem_addLaw_trace_iff (n va vb : Nat) :
    .finalCarry true ∈ (addLaw n va vb).trace ↔ 2 ^ n ≤ va + vb := by
  by_cases h : 2 ^ n ≤ va + vb
  · simp [addLaw_of_carry h, h]
  · simp [addLaw_of_no_carry h, h, finalCarry_not_mem_faEntries]

theorem addLaw_result_length (n va vb : Nat) :
    (addLaw n va vb).result.length = if 2 ^ n ≤ va + vb then n + 1 else n := by
  by_cases h : 2 ^ n ≤ va + vb
  · rw [addLaw_of_carry h, if_pos h, toBits_length]
  · rw [addLaw_of_no_carry h, if_neg h, toBits_length]

/-- Every character of the result has its entry, the final carry's among them (R116). -/
theorem addLaw_trace_length (n va vb : Nat) : (addLaw n va vb).trace.length = (addLaw n va vb).result.length := by
  by_cases h : 2 ^ n ≤ va + vb
  · simp [addLaw_of_carry h]
  · simp [addLaw_of_no_carry h]

/-- Settles O19: the carry out of a position is the carry into the next, which the law of ADD writes as a comparison. -/
theorem addCarriesAndResultLength : Obligations.AddCarriesAndResultLength :=
  fun _ _ _ h => ⟨_, exec_eq_lawDelivery h, fun _ hk => ⟨_, _, _, _, addLaw_trace_getElem? hk _ _⟩,
    finalCarry_mem_addLaw_trace_iff _ _ _, addLaw_result_length _ _ _⟩

/-- Settles O20: the length is that of the result, and each entry is that of the law. -/
theorem addTraceLengthAndKinds : Obligations.AddTraceLengthAndKinds := by
  intro a b s h
  refine ⟨_, exec_eq_lawDelivery h, addLaw_trace_length _ _ _,
    fun _ hk => ⟨_, _, _, addLaw_trace_getElem? hk _ _⟩, ?_⟩
  rw [addLaw_trace_length, addLaw_result_length]
  split
  next hc => exact ⟨rfl, addLaw_trace_getElem?_last hc⟩
  next => rfl

/-! ## Threading -/

theorem faEntry_zero (va vb : Nat) : faEntry va vb 0 =
    .faStep (va.testBit 0) (vb.testBit 0) false ((va + vb).testBit 0) (carryInto va vb 1) := by
  rw [faEntry, carryInto_zero]

theorem fsEntry_zero (va vb : Nat) : fsEntry va vb 0 =
    .fsStep (va.testBit 0) (vb.testBit 0) false
      ((difference 1 (va % 2 ^ 1) (vb % 2 ^ 1)).testBit 0) (borrowInto va vb 1) := by
  rw [fsEntry, borrowInto_zero]

/-- Settles O21: the entry of weight `k` ends with the carry or borrow into weight `k + 1`, with which the next one begins,
and nothing is carried into or borrowed from weight 0. -/
theorem carryAndBorrowAreThreaded : Obligations.CarryAndBorrowAreThreaded := by
  intro a b s h
  obtain ⟨ha, -⟩ := requestOperands_pos h
  have hpos : 0 < max a.length b.length := alignedLength_pos ha
  refine ⟨addLaw (max a.length b.length) (val a) (val b), subLaw (max a.length b.length) (val a) (val b),
    exec_eq_lawDelivery h, exec_eq_lawDelivery (i := .sub a b) h, ?_, ?_, fun k hk => ⟨?_, ?_⟩⟩
  · rw [addLaw_trace_getElem? hpos, faEntry_zero]
    exact ⟨_, _, _, _, rfl⟩
  · rw [subLaw_trace_getElem? hpos, fsEntry_zero]
    exact ⟨_, _, _, _, rfl⟩
  · rw [addLaw_trace_getElem? hk, addLaw_trace_getElem? (Nat.lt_of_succ_lt hk)]
    exact ⟨_, _, _, _, _, _, _, _, _, rfl, rfl⟩
  · rw [subLaw_trace_getElem? hk, subLaw_trace_getElem? (Nat.lt_of_succ_lt hk)]
    exact ⟨_, _, _, _, _, _, _, _, _, rfl, rfl⟩

/-! ## The operands exchanged -/

/-- A `FA_STEP` with its operand bits exchanged; any other entry as it is. -/
def TraceEntry.swapOperands : TraceEntry → TraceEntry
  | .faStep x y cin sum cout => .faStep y x cin sum cout
  | e => e

theorem carryInto_comm (va vb k : Nat) : carryInto vb va k = carryInto va vb k := by
  rw [carryInto, carryInto, Nat.add_comm]

theorem faEntry_comm (va vb k : Nat) : faEntry vb va k = (faEntry va vb k).swapOperands := by
  rw [faEntry, faEntry, carryInto_comm va vb, carryInto_comm va vb, Nat.add_comm vb va, TraceEntry.swapOperands]

theorem faEntries_comm (va vb n : Nat) : faEntries vb va n = (faEntries va vb n).map .swapOperands := by
  rw [faEntries, faEntries, List.map_map]
  exact List.map_congr_left fun k _ => faEntry_comm va vb k

theorem addLaw_comm (n va vb : Nat) : addLaw n vb va =
    { result := (addLaw n va vb).result, trace := (addLaw n va vb).trace.map .swapOperands } := by
  by_cases h : 2 ^ n ≤ va + vb
  · rw [addLaw_of_carry h, addLaw_of_carry (h.trans_eq (Nat.add_comm va vb)), Nat.add_comm vb va, faEntries_comm,
      List.map_append]
    rfl
  · rw [addLaw_of_no_carry h, addLaw_of_no_carry (by rwa [Nat.add_comm]), Nat.add_comm vb va, faEntries_comm]

theorem wellFormed_add_comm {c : Config} {a b : Bitstring} (h : (Instr.add a b).wellFormed c = true) :
    (Instr.add b a).wellFormed c = true :=
  (Bool.and_comm _ _).trans h

/-- Settles O22: the law of ADD reads the two values alike but for the operand bits of its entries. -/
theorem addCommutesUpToTraceFields : Obligations.AddCommutesUpToTraceFields := by
  intro a b s h
  have hba : exec (.add b a) s =
      .next (s.deliver (.response (addLaw (max a.length b.length) (val b) (val a)))) := by
    rw [max_comm]
    exact exec_eq_lawDelivery (wellFormed_add_comm h)
  rw [addLaw_comm] at hba
  exact ⟨_, _, exec_eq_lawDelivery h, hba, rfl, rfl⟩

end Sys2Proof.Machine
end

section
/-!
PROOFS. The Subtractor: SUB's whole response, the borrow out of its last position, the length and the kinds of its trace, and
operands of equal value.
-/

namespace Sys2Proof.Machine

/-! ## The whole response -/

/-- Settles O23: what the laws say of a SUB is the response at the aligned length (`sub_eq`, an induction over the positions
of the chain). -/
theorem subDeliversItsLaw : Obligations.SubDeliversItsLaw :=
  fun _ _ _ h => exec_eq_lawDelivery h

/-! ## The borrow out of the last position -/

/-- A length that holds a Bitstring holds its value. -/
theorem val_lt_two_pow {s : Bitstring} {n : Nat} (h : s.length ≤ n) : val s < 2 ^ n :=
  (val_lt s).trans_le (Nat.pow_le_pow_right (by decide) h)

/-- Above all bits of both operands the borrow is the comparison of the operands (R164). -/
theorem borrowInto_of_lt {n va vb : Nat} (ha : va < 2 ^ n) (hb : vb < 2 ^ n) :
    borrowInto va vb n = decide (va < vb) := by
  rw [borrowInto, Nat.mod_eq_of_lt ha, Nat.mod_eq_of_lt hb]

theorem subLaw_trace_getLast? (n va vb : Nat) :
    (subLaw (n + 1) va vb).trace.getLast? = some (fsEntry va vb n) := by
  rw [subLaw, fsEntries_succ, List.getLast?_concat]

/-- The last entry of a SUB has for borrow out the comparison of the operands. -/
theorem subLaw_trace_getLast?_borrow {n va vb : Nat} (hn : 1 ≤ n) (ha : va < 2 ^ n) (hb : vb < 2 ^ n) :
    ∃ x y bin diff : Bit, (subLaw n va vb).trace.getLast? = some (.fsStep x y bin diff (decide (va < vb))) := by
  obtain ⟨m, rfl⟩ := Nat.exists_eq_add_of_le' hn
  rw [subLaw_trace_getLast?, fsEntry, borrowInto_of_lt ha hb]
  exact ⟨_, _, _, _, rfl⟩

/-- Settles O26: the borrow out of the last position and the sign are one comparison. -/
theorem finalBorrowEqualsTheSign : Obligations.FinalBorrowEqualsTheSign := by
  intro a b s h
  obtain ⟨ha, -⟩ := requestOperands_pos h
  obtain ⟨x, y, bin, diff, hlast⟩ := subLaw_trace_getLast?_borrow (alignedLength_pos (b := b) ha)
    (val_lt_two_pow (le_max_left _ _)) (val_lt_two_pow (le_max_right _ _))
  exact ⟨_, exec_eq_lawDelivery h, x, y, bin, diff, _, hlast, decide_eq_true_iff, rfl⟩

/-! ## The trace -/

theorem subLaw_trace_length (n va vb : Nat) : (subLaw n va vb).trace.length = n := by
  rw [subLaw, fsEntries, List.length_map, List.length_range]

/-- Settles O27: the trace of the law has one entry for each weight below the aligned length. -/
theorem subTraceLengthAndKinds : Obligations.SubTraceLengthAndKinds :=
  fun _ _ _ h => ⟨_, exec_eq_lawDelivery h, subLaw_trace_length _ _ _,
    fun _ hk => ⟨_, _, _, subLaw_trace_getElem? hk _ _⟩⟩

/-! ## Equal values -/

theorem difference_self {n v : Nat} (h : v ≤ 2 ^ n) : difference n v v = 0 := by
  rw [difference, Nat.add_sub_of_le h, Nat.mod_self]

theorem shortest_zero : shortest 0 = [false] := rfl

/-- Operands of equal value give the sign `'0'` and the magnitude `"0"` (R134). -/
theorem subLaw_result_self {n v : Nat} (h : v ≤ 2 ^ n) : (subLaw n v v).result = [false, false] := by
  rw [subLaw, difference_self h, shortest_zero, decide_eq_false (lt_irrefl v)]

/-- Settles O28: SUB reads its operands only by the aligned length and their values, and these are equal. -/
theorem subOfEqualValuesIsZero : Obligations.SubOfEqualValuesIsZero := by
  intro a b s h hv
  refine ⟨_, exec_eq_lawDelivery h, ?_⟩
  rw [← hv]
  exact subLaw_result_self (val_lt_two_pow (le_max_left _ _)).le

end Sys2Proof.Machine
end

section
/-!
PROOFS. The Multiplier: MUL's whole response, the kinds and lengths of the entries of its trace, the trace with a zero operand,
and the product before the strip.
-/

namespace Sys2Proof.Machine

/-! ## The whole response -/

/-- Settles O29: what the laws say of a MUL is the response (`mul_eq`, an induction over the positions of `b`, in each of which
the nested ADD is the law of ADD). -/
theorem mulDeliversItsLaw : Obligations.MulDeliversItsLaw :=
  fun _ _ _ h => exec_eq_lawDelivery h

/-! ## The entries of a position -/

theorem mulEntries_of_set {w va vb k : Nat} (h : vb.testBit k = true) :
    mulEntries w va vb k =
      .partialProduct (toBits (w + k) (va * 2 ^ k)) (toBits (w + k) (va * (vb % 2 ^ (k + 1)))) ::
        faEntries (va * (vb % 2 ^ k)) (va * 2 ^ k) (w + k) :=
  if_pos h

theorem mulEntries_of_clear {w va vb k : Nat} (h : ¬ vb.testBit k = true) :
    mulEntries w va vb k = [.skip (zeros w)] :=
  if_neg h

theorem partialProduct_not_mem_faEntries (pp product : Bitstring) (va vb n : Nat) :
    TraceEntry.partialProduct pp product ∉ faEntries va vb n := by
  simp [faEntries, faEntry]

theorem finalCarry_not_mem_mulEntries (c : Bit) (w va vb k : Nat) : TraceEntry.finalCarry c ∉ mulEntries w va vb k := by
  by_cases h : vb.testBit k = true
  · simp [mulEntries_of_set h, finalCarry_not_mem_faEntries]
  · simp [mulEntries_of_clear h]

/-- The partial product and the new product of a position both have the aligned length of its nested ADD (R145, R151). -/
theorem length_eq_of_partialProduct_mem_mulEntries {w va vb k : Nat} {pp product : Bitstring}
    (hmem : .partialProduct pp product ∈ mulEntries w va vb k) : product.length = pp.length := by
  by_cases h : vb.testBit k = true
  · rw [mulEntries_of_set h, List.mem_cons] at hmem
    obtain heq | hin := hmem
    · obtain ⟨rfl, rfl⟩ := TraceEntry.partialProduct.inj heq
      rw [toBits_length, toBits_length]
    · exact absurd hin (partialProduct_not_mem_faEntries _ _ _ _ _)
  · simp [mulEntries_of_clear h] at hmem

/-- Settles O31: an entry of the trace is an entry of one position, and each position meets both claims. -/
theorem mulNeverTakesTheFinalCarry : Obligations.MulNeverTakesTheFinalCarry := by
  intro a b s h
  refine ⟨_, mulDeliversItsLaw a b s h, fun c hmem => ?_, fun pp product hmem => ?_⟩
  · obtain ⟨k, -, hk⟩ := List.mem_flatMap.1 hmem
    exact finalCarry_not_mem_mulEntries c _ _ _ k hk
  · obtain ⟨k, -, hk⟩ := List.mem_flatMap.1 hmem
    exact length_eq_of_partialProduct_mem_mulEntries hk

/-! ## The length of the trace -/

/-- A set bit adds the entries of its nested ADD to the one entry that every position has (R146, R147). -/
theorem mulEntries_length (w va vb k : Nat) :
    (mulEntries w va vb k).length = if vb.testBit k then w + k + 1 else 1 := by
  by_cases h : vb.testBit k = true
  · rw [mulEntries_of_set h, if_pos h, List.length_cons, faEntries_length]
  · rw [mulEntries_of_clear h, if_neg h, List.length_singleton]

theorem mulEntries_flatMap_length (w va vb n : Nat) :
    ((List.range n).flatMap (mulEntries w va vb)).length =
      n + (((List.range n).filter (fun k => vb.testBit k)).map (fun k => w + k)).sum := by
  induction n with
  | zero => rfl
  | succ n ih =>
    rw [flatMap_range_succ, List.length_append, ih, mulEntries_length, List.range_succ, List.filter_append]
    by_cases h : vb.testBit n = true
    · simp [h]; omega
    · simp [h]; omega

/-- Settles O32: the lengths of the positions' entries, added up. -/
theorem mulTraceLength : Obligations.MulTraceLength :=
  fun a b s h => ⟨_, mulDeliversItsLaw a b s h, mulEntries_flatMap_length _ _ _ _⟩

/-! ## A zero operand -/

theorem faEntry_zero_zero (k : Nat) : faEntry 0 0 k = .faStep false false false false false := by
  simp [faEntry, carryInto]

theorem faEntries_zero_zero (n : Nat) : faEntries 0 0 n = List.replicate n (.faStep false false false false false) := by
  rw [faEntries, funext faEntry_zero_zero, List.map_const', List.length_range]

/-- With a multiplier of value 0 every position is skipped. -/
theorem mulLaw_zero_right (la lb va : Nat) :
    mulLaw la lb va 0 = { result := [false], trace := List.replicate lb (.skip (zeros (la + lb))) } := by
  have hskip : mulEntries (la + lb) va 0 = fun _ => [.skip (zeros (la + lb))] :=
    funext fun k => mulEntries_of_clear (by simp)
  rw [mulLaw, Nat.mul_zero, shortest_zero, hskip, ← List.map_eq_flatMap, List.map_const', List.length_range]

/-- With a multiplicand of value 0 a set bit still has its whole nested ADD, all of it zeros. -/
theorem mulEntries_zero_left (w vb k : Nat) :
    mulEntries w 0 vb k =
      if vb.testBit k then
        .partialProduct (zeros (w + k)) (zeros (w + k)) ::
          List.replicate (w + k) (.faStep false false false false false)
      else [.skip (zeros w)] := by
  simp only [mulEntries, Nat.zero_mul, toBits_zero, faEntries_zero_zero]

/-- Settles O33: the law of MUL at the value 0 of either operand. -/
theorem mulOfZeroOperands : Obligations.MulOfZeroOperands := by
  intro a b s h
  refine ⟨_, mulDeliversItsLaw a b s h, fun hb => ?_, fun ha => ⟨?_, ?_⟩⟩
  · rw [hb, mulLaw_zero_right]
  · rw [mulLaw, ha, Nat.zero_mul, shortest_zero]
  · rw [mulLaw, ha, funext (mulEntries_zero_left _ _)]

/-! ## The product before the strip -/

/-- After the last position the running product is that of the whole multiplier. -/
theorem mulPositions_product {a b : Bitstring} (ha : 1 ≤ a.length) (hb : 1 ≤ b.length) :
    (mulPositions b.length (mulStart a b)).product =
      runningProduct (a.length + b.length) (val a) (val b) b.length := by
  obtain ⟨⟨-, -, -, -, hp, -⟩, hax, hb', hleft⟩ := mulPositions_spec b.length _ (mulStart_ok ha hb) rfl
  rw [hp, hax, hb', hleft]
  simp [mulStart, extendMultiplicand, Nat.add_comm]

theorem runningProduct_zero_right (w va k : Nat) : runningProduct w va 0 k = [false] := by
  rw [runningProduct, if_pos (Nat.zero_mod _)]

/-- Once all bits of a non-zero multiplier are processed, its highest set bit gives the length (R153). -/
theorem runningProduct_length {w va vb k : Nat} (h0 : vb ≠ 0) (hlt : vb < 2 ^ k) :
    (runningProduct w va vb k).length = w + vb.log2 := by
  rw [runningProduct, Nat.mod_eq_of_lt hlt, if_neg h0, toBits_length]

/-- Settles O34: the product is the running product of the whole multiplier, whose highest set bit lies below its length. -/
theorem unstrippedProductLength : Obligations.UnstrippedProductLength := by
  intro a b s h
  obtain ⟨ha, hb⟩ := requestOperands_pos h
  refine ⟨mul a b, _, respond_of_ok h, rfl, rfl, fun h0 => ?_, fun h0 => ?_⟩
  · rw [mulPositions_product ha hb, h0, runningProduct_zero_right]
  · have hlog : (val b).log2 < b.length := (Nat.log2_lt h0).2 (val_lt b)
    rw [mulPositions_product ha hb, runningProduct_length h0 (val_lt b)]
    exact ⟨rfl, by omega⟩

end Sys2Proof.Machine
end

section
/-!
PROOFS. The laws on values: ADD gives the exact sum, SUB the sign and the exact difference, MUL the exact product, and zeros
before an operand, which leave its value, leave these results.
-/

namespace Sys2Proof.Machine

/-! ## The sum -/

/-- The final carry makes room for a sum that the aligned length does not hold (R160). -/
theorem val_addLaw_result {n va vb : Nat} (ha : va < 2 ^ n) (hb : vb < 2 ^ n) :
    val (addLaw n va vb).result = va + vb := by
  by_cases h : 2 ^ n ≤ va + vb
  · rw [addLaw_of_carry h, val_toBits, Nat.mod_eq_of_lt (by omega)]
  · rw [addLaw_of_no_carry h, val_toBits, Nat.mod_eq_of_lt (by omega)]

/-- The same at the aligned length, which holds both operands. -/
theorem val_addLaw_aligned (a b : Bitstring) :
    val (addLaw (max a.length b.length) (val a) (val b)).result = val a + val b :=
  val_addLaw_result (val_lt_two_pow (le_max_left _ _)) (val_lt_two_pow (le_max_right _ _))

/-- Settles O18: the law of ADD has the exact sum for its value. -/
theorem addResultIsTheExactSum : Obligations.AddResultIsTheExactSum :=
  fun a b _ h => ⟨_, exec_eq_lawDelivery h, val_addLaw_aligned a b⟩

/-! ## The sign and the difference -/

/-- With a minuend that is not smaller the difference does not wrap around. -/
theorem difference_of_le {n va vb : Nat} (ha : va < 2 ^ n) (h : vb ≤ va) : difference n va vb = va - vb := by
  have hwrap : va + (2 ^ n - vb) = va - vb + 2 ^ n := by omega
  rw [difference, hwrap, Nat.add_mod_right, Nat.mod_eq_of_lt (by omega)]

/-- A SUB that is not negative gives the sign `'0'` and the shortest Bitstring of the true difference (R162). -/
theorem subLaw_result_of_le {n va vb : Nat} (ha : va < 2 ^ n) (h : vb ≤ va) :
    (subLaw n va vb).result = false :: shortest (va - vb) := by
  rw [subLaw, difference_of_le ha h, decide_eq_false (Nat.not_lt.2 h)]

/-- The same at the aligned length, which holds the minuend. -/
theorem subLaw_aligned_result_of_le {a b : Bitstring} (h : val b ≤ val a) :
    (subLaw (max a.length b.length) (val a) (val b)).result = false :: shortest (val a - val b) :=
  subLaw_result_of_le (val_lt_two_pow (le_max_left _ _)) h

/-- Settles O24: the sign of the law of SUB is the comparison, and without a wrap-around its digits are the shortest of the
true difference. -/
theorem subSignAndMagnitude : Obligations.SubSignAndMagnitude := by
  intro a b s h
  refine ⟨subLaw (max a.length b.length) (val a) (val b), exec_eq_lawDelivery h, rfl, fun hle => ?_⟩
  rw [subLaw_aligned_result_of_le hle, List.drop_one, List.tail_cons]
  exact ⟨val_shortest _, isShortest_shortest _⟩

/-! ## The product -/

theorem wellFormed_mul_comm {c : Config} {a b : Bitstring} (h : (Instr.mul a b).wellFormed c = true) :
    (Instr.mul b a).wellFormed c = true :=
  (Bool.and_comm _ _).trans h

/-- Settles O30: the law of MUL gives the shortest Bitstring of a product of values, which commutes. -/
theorem mulResultIsTheExactProduct : Obligations.MulResultIsTheExactProduct :=
  fun a b s h => ⟨_, _, mulDeliversItsLaw a b s h, mulDeliversItsLaw b a s (wellFormed_mul_comm h), val_shortest _,
    isShortest_shortest _, congrArg shortest (Nat.mul_comm _ _)⟩

/-! ## Leading zeros -/

/-- Without a limit any two non-empty operands may stand in a request (R7). -/
theorem requestOperands_ok_of_unlimited {c : Config} {a b : Bitstring} (hc : c.wMax = none) (ha : 1 ≤ a.length)
    (hb : 1 ≤ b.length) : (requestOperandOk c a && requestOperandOk c b) = true := by
  simp [requestOperandOk, withinLimit, hc, ha, hb]

theorem zeros_append_length_pos {a : Bitstring} (ha : 1 ≤ a.length) (k : Nat) : 1 ≤ (zeros k ++ a).length := by
  rw [List.length_append]
  omega

/-- Settles O35: zeros before an operand leave its value, and each of the three results is given by the values: ADD's as the
sum, SUB's as the difference, MUL's as the product. -/
theorem leadingZerosKeepTheseResults : Obligations.LeadingZerosKeepTheseResults := by
  intro a b p q s hc ha hb
  have ok := requestOperands_ok_of_unlimited hc ha hb
  have okz := requestOperands_ok_of_unlimited hc (zeros_append_length_pos ha p) (zeros_append_length_pos hb q)
  refine ⟨⟨_, _, addDeliversItsLaw a b s ok, addDeliversItsLaw _ _ s okz, ?_⟩,
    ⟨_, _, subDeliversItsLaw a b s ok, subDeliversItsLaw _ _ s okz, fun hle => ?_⟩,
    ⟨_, _, mulDeliversItsLaw a b s ok, mulDeliversItsLaw _ _ s okz, ?_⟩⟩
  · rw [val_addLaw_aligned, val_addLaw_aligned, val_zeros_append, val_zeros_append]
  · rw [subLaw_aligned_result_of_le hle, subLaw_aligned_result_of_le (by rwa [val_zeros_append, val_zeros_append]),
      val_zeros_append, val_zeros_append]
  · rw [mulLaw, mulLaw, val_zeros_append, val_zeros_append]

end Sys2Proof.Machine
end

section
/-!
PROOFS. The boundary guard: which texts it passes, which operand it names when it turns a text away, and the cause code of the
error that the machine then delivers.
-/

namespace Sys2Proof.Machine

/-! ## What the guard passes -/

/-- The guard passes two texts exactly when each passes by itself (R181). -/
theorem boundaryGuard_eq_ok_iff {ta tb : List Char} {a b : Bitstring} :
    boundaryGuard ta tb = .ok (a, b) ↔ readOperand ta = some a ∧ readOperand tb = some b := by
  unfold boundaryGuard
  cases readOperand ta with
  | none => simp
  | some a' => cases readOperand tb <;> simp

theorem toText_eq_nil {s : Bitstring} : toText s = [] ↔ s = [] := List.map_eq_nil_iff

/-- A Bitstring is written with the two legal characters (R11, R68). -/
theorem mem_toText {s : Bitstring} {c : Char} (h : c ∈ toText s) : c = '0' ∨ c = '1' := by
  obtain ⟨b, -, rfl⟩ := List.mem_map.1 h
  cases b
  · exact .inl rfl
  · exact .inr rfl

/-- The precondition of R202 is what `readOperand` tests, and what it reads is written as the text it was read from. -/
theorem readOperand_eq_some_iff {t : List Char} {s : Bitstring} :
    readOperand t = some s ↔ t ≠ [] ∧ (∀ c ∈ t, c = '0' ∨ c = '1') ∧ toText s = t := by
  rw [readOperand_eq_some]
  constructor
  · rintro ⟨rfl, hs⟩
    exact ⟨mt toText_eq_nil.1 hs, fun _ => mem_toText, rfl⟩
  · rintro ⟨ht, -, rfl⟩
    exact ⟨rfl, mt toText_eq_nil.2 ht⟩

/-- Settles O10: the guard passes what its two halves pass, and each half is the precondition of its operand. -/
theorem guardPassesExactlyWellFormedText : Obligations.GuardPassesExactlyWellFormedText := by
  intro ta tb a b
  rw [boundaryGuard_eq_ok_iff, readOperand_eq_some_iff, readOperand_eq_some_iff]
  constructor
  · rintro ⟨⟨ha, hca, hta⟩, hb, hcb, htb⟩
    exact ⟨ha, hb, hca, hcb, hta, htb⟩
  · rintro ⟨ha, hb, hca, hcb, hta, htb⟩
    exact ⟨⟨ha, hca, hta⟩, hb, hcb, htb⟩

/-! ## What the guard turns away -/

/-- A non-empty text of legal characters is read as some Bitstring (R180, R191). -/
theorem exists_readOperand_eq_some {t : List Char} (ht : t ≠ []) (hc : ∀ c ∈ t, c = '0' ∨ c = '1') :
    ∃ s, readOperand t = some s := by
  refine Option.ne_none_iff_exists'.1 (mt readOperand_eq_none.1 ?_)
  rintro (h | ⟨c, hmem, h0, h1⟩)
  · exact ht h
  · exact (hc c hmem).elim h0 h1

/-- A bad first operand is named whatever the second is (R183). -/
theorem decode_text_of_bad_a {ta : List Char} (ha : readOperand ta = none) (op : BitVec 2) (tb : List Char) :
    decode (.text op ta tb) = .error (.invalidInput .a) := by
  simp only [decode, boundaryGuard, ha]

/-- The second operand is named only behind a good first one (R183). -/
theorem decode_text_of_bad_b {ta tb : List Char} {a : Bitstring} (ha : readOperand ta = some a)
    (hb : readOperand tb = none) (op : BitVec 2) : decode (.text op ta tb) = .error (.invalidInput .b) := by
  simp only [decode, boundaryGuard, ha, hb]

/-- Settles O8: an idle machine answers the guard's error by delivering it, which the state without the input shows. -/
theorem malformedTextRaisesInvalidInput : Obligations.MalformedTextRaisesInvalidInput := by
  intro s op ta tb rest hw hi
  obtain ⟨-, turnedAway⟩ := step_of_input hw hi
  constructor
  · intro ha
    exact turnedAway _ (decode_text_of_bad_a (readOperand_eq_none.2 ha) op tb)
  · rintro ⟨hne, hca⟩ hb
    obtain ⟨a, ha⟩ := exists_readOperand_eq_some hne hca
    exact turnedAway _ (decode_text_of_bad_b ha (readOperand_eq_none.2 hb) op)

/-! ## The cause codes -/

/-- Settles O9: the code of an error is that of its operand, and every other delivery has the code 0. -/
theorem causeCodesNameTheOperand : Obligations.CauseCodesNameTheOperand := by
  intro d
  cases d with
  | invalidInput o => cases o <;> simp [Delivery.errorCode, operandCode]
  | _ => simp [Delivery.errorCode]

end Sys2Proof.Machine
end

section
/-!
PROOFS. A step with no operation in progress: the instruction that it runs or starts, and what it does with nothing at its
inputs.
-/

namespace Sys2Proof.Machine

/-- An instruction without an operation code keeps no working values (R25, R68). -/
theorem startWork_of_operationCode_none {i : Instr} (h : operationCode i = none) : startWork i = none := by
  cases i with
  | add a b => cases h
  | sub a b => cases h
  | mul a b => cases h
  | _ => rfl

/-- An instruction with working values is, as a whole, the answer to a request with its operands. -/
theorem exec_eq_respond_of_startWork {i : Instr} {a b : Bitstring} {w : Work} (h : startWork i = some (a, b, w)) :
    ∃ r, ∀ s, exec i s = respond a b r s := by
  cases i with
  | add a b => cases h; exact ⟨_, fun _ => rfl⟩
  | sub a b => cases h; exact ⟨_, fun _ => rfl⟩
  | mul a b => cases h; exact ⟨_, fun _ => rfl⟩
  | _ => cases h

/-- To start an operation is to refuse what `exec` refuses, on the same ground, and to hold the working values where `exec`
would deliver. -/
theorem begin_exec_cases {i : Instr} {a b : Bitstring} {w : Work} (h : startWork i = some (a, b, w)) (s : State) :
    (∃ r, exec i s = .refused r ∧ begin a b w s = .refused r) ∨
    ∃ t, exec i s = .next t ∧ begin a b w s = .next (s.setWork (some w)) := by
  obtain ⟨res, hexec⟩ := exec_eq_respond_of_startWork h
  rcases respond_cases a b res s with ⟨ok, hr⟩ | ⟨-, ref, hg, hr⟩
  · exact .inr ⟨_, (hexec s).trans hr, begin_of_ok ok⟩
  · exact .inl ⟨ref, (hexec s).trans hr, by simp only [begin, hg]⟩

/-- What `exec` refuses is refused at either granularity, on the same ground (R65, R186). -/
theorem serve_of_exec_refused {i : Instr} {s : State} {r : Refusal} (h : exec i s = .refused r) :
    serve i s = .refused r := by
  cases hg : s.cfg.granularity with
  | operation => rw [serve_whole (.inl hg), h]
  | position =>
    cases hs : startWork i with
    | none => rw [serve_whole (.inr hs), h]
    | some p =>
      obtain ⟨a, b, w⟩ := p
      rw [serve_started hg hs]
      rcases begin_exec_cases hs s with ⟨r', hr, hbegin⟩ | ⟨t, hn, -⟩
      · rw [hbegin, ← hr, h]
      · rw [hn] at h
        cases h

/-- With one position as one step, an operation that `exec` would carry out is started (D11). -/
theorem serve_of_exec_next {i : Instr} {s t : State} {a b : Bitstring} {w : Work} (hg : s.cfg.granularity = .position)
    (hs : startWork i = some (a, b, w)) (h : exec i s = .next t) : serve i s = .next (s.setWork (some w)) := by
  rw [serve_started hg hs]
  rcases begin_exec_cases hs s with ⟨r, hr, -⟩ | ⟨-, -, hbegin⟩
  · rw [hr] at h
    cases h
  · exact hbegin

/-- Settles O42: the step is `serve` of the instruction, which is `exec`, refuses what `exec` refuses, or starts what `exec`
would carry out. -/
theorem stepRunsTheDecodedInstruction : Obligations.StepRunsTheDecodedInstruction := by
  intro s x rest i hw hi hd
  rw [(step_of_input hw hi).1 i hd]
  constructor
  · intro h
    exact serve_whole (h.imp_right startWork_of_operationCode_none)
  · intro hg
    refine ⟨fun r => serve_of_exec_refused, fun a b t h => ⟨?_, ?_, ?_⟩⟩
    · rintro rfl
      exact serve_of_exec_next hg rfl h
    · rintro rfl
      exact serve_of_exec_next hg rfl h
    · rintro rfl
      exact serve_of_exec_next hg rfl h

/-- Settles O49: nothing is in progress and nothing waits, which is the case of `step_of_no_input`. -/
theorem idleWithoutInput : Obligations.IdleWithoutInput := fun _ => step_of_no_input

end Sys2Proof.Machine
end
